-- ==== Sys2Proof/Word.lean ====
section
/-! DEFINITION. The word types of the block and the names of its two address spaces (00_scope.md R7, 20_memory.md R30). -/

namespace Sys2Proof

/-- A byte (R7). -/
abbrev Byte := BitVec 8

/-- A 16-bit value: `CRC`, a register address, a register value (R7). -/
abbrev Half := BitVec 16

/-- A 40-bit command word `CW` (R53). -/
abbrev CommandWord := BitVec 40

/-- The two address spaces of R30: the transmit buffer `TXBUF` and the receive buffer `RXBUF`. -/
inductive Space where
  | tx
  | rx
deriving DecidableEq, Repr

end Sys2Proof
end

