-- ==== Sys2Proof/Config.lean ====
section
/-! DEFINITION. The parameters of R6, and the free values of the model. -/

namespace Sys2Proof

/-- `POLY`, the CRC feedback constant (R6). -/
def Config.poly : Half := 0xA001#16

/-- `INIT`, the CRC start value (R6). -/
def Config.init : Half := 0xFFFF#16

/-- `FC_WSR`, the function code "write single register" (R6). -/
def Config.fcWsr : Byte := 0x06#8

/-- The bit that marks an exception response, `functionCode OR 0x80` (R47, R51). -/
def Config.exceptionBit : Byte := 0x80#8

/-- `SID_MIN` (R6). -/
def Config.sidMin : Nat := 1

/-- `SID_MAX` (R6). -/
def Config.sidMax : Nat := 247

/-- `REG_CTRL`, the control register of the drive (R6; UNVERIFIED against the device, log 16). -/
def Config.regCtrl : Half := 0x6000#16

/-- `REG_FREQ`, the frequency register of the drive (R6; UNVERIFIED against the device, log 16). -/
def Config.regFreq : Half := 0x5000#16

/-- `VAL_CW` (R6). -/
def Config.valCw : Half := 0x0001#16

/-- `VAL_CCW` (R6). -/
def Config.valCcw : Half := 0x0002#16

/-- `VAL_STOP` (R6). -/
def Config.valStop : Half := 0x0000#16

/-- `DEC_MIN` and `EXC_LEN`: the least length the decoder accepts and the length of an exception response (R6). -/
def Config.excLen : Nat := 5

/-- `REQ_LEN`: the length of a request and of a normal response (R6). -/
def Config.reqLen : Nat := 8

/-- The number of addresses of each space, `TX_CAP` and `RX_CAP` (R6, R30). -/
def Config.bufCap : Nat := 8

/-- FREE VALUE (log 4). What a read of a buffer byte that nothing has written returns (R31, U1, U2): by space, by
the model's epoch and by address. It has no body, so nothing can be proved of its value; it is the same for every read
within one epoch, as R36 requires. -/
opaque Config.freeByte : Space → Nat → Nat → Byte

end Sys2Proof
end

