-- ==== Sys2Proof/Syntax.lean ====
section
/-! DEFINITION. The instructions (one constructor per row of spec/opcode_table.json), and what the host presents to the block. -/

namespace Sys2Proof

/-- One constructor per row of the opcode table: the eleven operations of R54, and the two wire frames of R46 and R47 as
they come in from the serial link. A frame holds its two CRC bytes as received: a frame may arrive damaged. -/
inductive Instr where
  /-- `CRCINIT` (R68). -/
  | crcinit
  /-- `CRCBYTE b` (R69). -/
  | crcbyte (b : Byte)
  /-- `SETID id` (R77): all 16 bits of the operand count. -/
  | setid (id : Half)
  /-- `ENCWSR addr, val` (R78). -/
  | encwsr (addr val : Half)
  /-- `ROTCW` (R79). -/
  | rotcw
  /-- `ROTCCW` (R80). -/
  | rotccw
  /-- `SETFREQ val` (R81). -/
  | setfreq (val : Half)
  /-- `STOP` (R82). -/
  | stop
  /-- `RXCLR` (R90). -/
  | rxclr
  /-- `RXPUSH b` (R91). -/
  | rxpush (b : Byte)
  /-- `DEC efc` (R95). -/
  | dec (efc : Byte)
  /-- `FRAME_WSR`, format F8 (R46): `sid 06 registerHi registerLo valueHi valueLo crcLo crcHi`. -/
  | frameWsr (sid : Byte) (addr val : Half) (crcLo crcHi : Byte)
  /-- `FRAME_EXCEPTION`, format F5 (R47): `sid 86 exceptionCode crcLo crcHi`. -/
  | frameException (sid code crcLo crcHi : Byte)
deriving DecidableEq, Repr

/-- The mnemonic of an instruction, as spec/opcode_table.json spells it. -/
def Instr.mnemonic : Instr → String
  | .crcinit => "CRCINIT"
  | .crcbyte _ => "CRCBYTE"
  | .setid _ => "SETID"
  | .encwsr _ _ => "ENCWSR"
  | .rotcw => "ROTCW"
  | .rotccw => "ROTCCW"
  | .setfreq _ => "SETFREQ"
  | .stop => "STOP"
  | .rxclr => "RXCLR"
  | .rxpush _ => "RXPUSH"
  | .dec _ => "DEC"
  | .frameWsr _ _ _ _ _ => "FRAME_WSR"
  | .frameException _ _ _ _ => "FRAME_EXCEPTION"

/-- What the host presents to the block. Command words and wire frames are different spaces: "a frame is never presented
as a command word" (R60). -/
inductive Presented where
  /-- One command word on the command port (R53). -/
  | command (cw : CommandWord)
  /-- The bytes that come back from the link in answer to a request, in arrival order, up to the read timeout: the host
  gives them to the block by the procedure of R100. -/
  | response (bytes : List Byte)
deriving DecidableEq, Repr

/-- What the host can read (R22, R30): a status view by number, or a buffer byte by space and address. -/
inductive ReadRequest where
  | view (number : Nat)
  | byte (space : Space) (addr : Nat)
deriving DecidableEq, Repr

/-- What the host does to the block, one at a time and between operations (R120, R125). -/
inductive HostEvent where
  | present (p : Presented)
  | read (r : ReadRequest)
  /-- The reset event: "an input of its own, not a command word" (R125). -/
  | reset
deriving DecidableEq, Repr

end Sys2Proof
end

