-- ==== Sys2Proof/Machine/Operands.lean ====
section
/-! DEFINITION. Operand forms: bytes of a 16-bit value (R48), 16-bit values from bytes (R49), the fields of a command word
(R53) and the byte layout of the two wire frames (R46, R47). -/

namespace Sys2Proof.Machine

/-- `hi(v) = v[15:8]` (R7). -/
def hi (v : Half) : Byte := v.extractLsb' 8 8

/-- `lo(v) = v[7:0]` (R7). -/
def lo (v : Half) : Byte := v.extractLsb' 0 8

/-- `{h, l}`: `h` concatenated above `l` (R7). -/
def join (h l : Byte) : Half := h ++ l

/-- `OP = CW[39:32]` (R53). -/
def fieldOp (cw : CommandWord) : Byte := cw.extractLsb' 32 8

/-- `A = CW[31:16]` (R53). -/
def fieldA (cw : CommandWord) : Half := cw.extractLsb' 16 16

/-- `B = CW[15:0]` (R53). -/
def fieldB (cw : CommandWord) : Half := cw.extractLsb' 0 16

/-- A command word from its three fields (R53). -/
def commandWord (op : Byte) (a b : Half) : CommandWord := op ++ a ++ b

/-- The 6-byte payload of a write-single-register frame (R75): both 16-bit fields high byte first (R32). -/
def wsrPayload (sid : Byte) (addr val : Half) : List Byte :=
  [sid, Config.fcWsr, hi addr, lo addr, hi val, lo val]

/-- The 3-byte payload of an exception frame (R47). -/
def exceptionPayload (sid code : Byte) : List Byte :=
  [sid, Config.fcWsr ||| Config.exceptionBit, code]

/-- The five bytes of a 40-bit frame number, byte 0 the most significant (R45). -/
def frame5Bytes (w : BitVec 40) : List Byte :=
  [w.extractLsb' 32 8, w.extractLsb' 24 8, w.extractLsb' 16 8, w.extractLsb' 8 8, w.extractLsb' 0 8]

/-- The eight bytes of a 64-bit frame number, byte 0 the most significant (R45). -/
def frame8Bytes (w : BitVec 64) : List Byte :=
  [w.extractLsb' 56 8, w.extractLsb' 48 8, w.extractLsb' 40 8, w.extractLsb' 32 8,
   w.extractLsb' 24 8, w.extractLsb' 16 8, w.extractLsb' 8 8, w.extractLsb' 0 8]

end Sys2Proof.Machine
end

