-- ==== Sys2Proof/Machine/State.lean ====
section
/-! DEFINITION. The state of the block (10_state.md), its value after reset (R126), and the reasons a step can stop. -/

namespace Sys2Proof.Machine

/-- The outcome codes that `STATUS` can hold (R20). Codes `0xB` to `0xF` are never written and have no name here (U4). -/
inductive Status where
  /-- `0x0`: reset only. -/
  | idle
  /-- `0x1`: an operation other than `DEC` completed. -/
  | ok
  /-- `0x2`: a valid normal response. -/
  | ack
  /-- `0x3`: the recomputed CRC differs from the trailing two bytes. -/
  | checksumMismatch
  /-- `0x4`: byte 0 differs from `SLAVEID`. -/
  | unexpectedSlave
  /-- `0x5`: too short, or an unknown function-code byte. -/
  | malformedFrame
  /-- `0x6`: a valid exception response; `EXCODE` holds the code. -/
  | slaveException
  /-- `0x7`: `SETID` outside 1 to 247. -/
  | idRejected
  /-- `0x8`: an operation that reads `SLAVEID` while `IDVALID = 0`. -/
  | notConfigured
  /-- `0x9`: `RXPUSH` while `RXLEN = 8`, `DEC` while `RXOVF = 1`. -/
  | rxOverflow
  /-- `0xA`: the command word selects no operation. -/
  | illegalOp
deriving DecidableEq, Repr

/-- The contents of one address space (R30): the bytes something has written, by rising address. An address that is not
listed holds no value (R15: "a model gives a byte nothing has written no value"). -/
abbrev Memory := List Host.Cell

/-- The whole state. The first ten fields are the ten elements of R126; the last three are the model's own. -/
@[ext]
structure State where
  /-- `CRC` (R12). -/
  crc : Half
  /-- `SLAVEID` (R13). -/
  slaveId : Byte
  /-- `IDVALID` (R14). -/
  idValid : Bool
  /-- `TXBUF[0..7]` (R15). -/
  tx : Memory
  /-- `TXVALID` (R16). -/
  txValid : Bool
  /-- `RXBUF[0..7]` (R17). -/
  rx : Memory
  /-- `RXLEN` (R17): "legal values 0 to 8". -/
  rxLen : Fin 9
  /-- `RXOVF` (R18). -/
  rxOvf : Bool
  /-- `STATUS` (R20). -/
  status : Status
  /-- `EXCODE` (R19). -/
  excode : Byte
  /-- The model's own (log 1): what the host will do, next first. The block stores no command word (R39). -/
  port : List HostEvent
  /-- The model's own (log 6): what the host got back from its latest read; `none` until it reads. -/
  reply : Option Half
  /-- The model's own (log 5): how many presentations and resets the block has seen. -/
  epoch : Nat
deriving DecidableEq, Repr

/-- Why a step stops with a fault. There is no reason: the block never traps and never hangs (R118), and no row of
93_implementation_defined.md asks for the treatment `fault`. Nobody raises one. Safe. -/
inductive Fault where
deriving DecidableEq, Repr

/-- Why a step has no meaning. -/
inductive Refusal where
  /-- Raised by an arm of `exec` that has no meaning yet. No arm raises it. Safe. -/
  | notModelled (mnemonic : String)
  /-- Raised by a host read of space `TX` or `RX` at an address above 7, which "does not exist in either space" (R30, U3:
  "`refuse`: outside the interface, no meaning"). Safe: the spec gives the read no meaning (log 7). -/
  | noSuchAddress (space : Space) (addr : Nat)
  /-- Raised by a host read of a view numbered above 4 (R22, U3: "`refuse`: outside the interface, no meaning").
  Safe (log 7). -/
  | noSuchView (number : Nat)
deriving DecidableEq, Repr

/-- The block after `RESET` (R126), with nothing presented yet. The buffer bytes are unspecified: nothing is listed. -/
def State.reset : State where
  crc := 0xFFFF#16
  slaveId := 0x00#8
  idValid := false
  tx := []
  txValid := false
  rx := []
  rxLen := 0
  rxOvf := false
  status := .idle
  excode := 0x00#8
  port := []
  reply := none
  epoch := 0

end Sys2Proof.Machine
end

