-- ==== Sys2Proof/Machine/Codec.lean ====
section
/-! DEFINITION. The pure functions of the block: `crc_byte` (R66), `crc16` (R65), `encodeWSR` (R75), `need` (R92) and
`decodeResponse` (R94). -/

namespace Sys2Proof.Machine

/-- One iteration of the CRC step (R66): the low bit is tested before the logical shift. -/
def crcShift (acc : Half) : Half :=
  if acc.getLsbD 0 then (acc >>> 1) ^^^ Config.poly else acc >>> 1

/-- `n` iterations of the CRC step. -/
def crcShifts : Nat → Half → Half
  | 0, acc => acc
  | n + 1, acc => crcShifts n (crcShift acc)

/-- `crc_byte(acc, b)` (R66): XOR the byte into the low half, then 8 iterations. -/
def crcByte (acc : Half) (b : Byte) : Half := crcShifts 8 (acc ^^^ b.setWidth 16)

/-- The CRC accumulator carried over a byte sequence, from any start value. -/
def crcFrom : Half → List Byte → Half
  | acc, [] => acc
  | acc, b :: bs => crcFrom (crcByte acc b) bs

/-- `crc16(s)` (R65). -/
def crc16 (s : List Byte) : Half := crcFrom Config.init s

/-- A payload followed by its CRC, low byte first (R70). -/
def withCrc (p : List Byte) : List Byte := p ++ [lo (crc16 p), hi (crc16 p)]

/-- `encodeWSR(sid, addr, val)` (R75). -/
def encodeWSR (sid : Byte) (addr val : Half) : List Byte := withCrc (wsrPayload sid addr val)

/-- `need(s)` (R92): 8 when byte 1 is there and has bit 7 clear, else 5. -/
def need : List Byte → Nat
  | _ :: b1 :: _ => if b1.getLsbD 7 then Config.excLen else Config.reqLen
  | _ => Config.excLen

/-- The payload of a received sequence: all but its last two bytes (R49). -/
def payload (s : List Byte) : List Byte := s.take (s.length - 2)

/-- `rxcrc = {s[n-1], s[n-2]}`: the trailing two bytes, low byte first (R49). -/
def trailingCrc (s : List Byte) : Half :=
  join (s.getD (s.length - 1) 0) (s.getD (s.length - 2) 0)

/-- `decodeResponse(s, esid, efc)` (R94): the tests in the source's order, the first that fails decides. -/
def decodeResponse (s : List Byte) (esid efc : Byte) : Status × Byte :=
  if s.length < Config.excLen then (.malformedFrame, 0x00#8)
  else if crc16 (payload s) ≠ trailingCrc s then (.checksumMismatch, 0x00#8)
  else if s.getD 0 0 ≠ esid then (.unexpectedSlave, 0x00#8)
  else if s.getD 1 0 = efc then (.ack, 0x00#8)
  else if s.getD 1 0 = efc ||| Config.exceptionBit then (.slaveException, s.getD 2 0)
  else (.malformedFrame, 0x00#8)

end Sys2Proof.Machine
end

