-- ==== Sys2Proof/WellFormed.lean ====
section
/-! DEFINITION. Which instructions are well formed: a command word's operands are any values of their fields (R54), a frame's
two CRC bytes "are not free bits but a function of the bits before them" (R60). -/

namespace Sys2Proof

/-- The two CRC bytes are those of the payload, low byte first (R46, R47, R70). -/
def crcBytesFit (p : List Byte) (crcLo crcHi : Byte) : Bool :=
  crcLo == Machine.lo (Machine.crc16 p) && crcHi == Machine.hi (Machine.crc16 p)

/-- Well-formedness. A frame that arrives damaged is ill formed, and still runs (log 13). -/
def Instr.wellFormed : Instr → Bool
  | .crcinit | .crcbyte _ | .setid _ | .encwsr _ _ | .rotcw | .rotccw | .setfreq _ | .stop
  | .rxclr | .rxpush _ | .dec _ => true
  | .frameWsr sid addr val crcLo crcHi => crcBytesFit (Machine.wsrPayload sid addr val) crcLo crcHi
  | .frameException sid code crcLo crcHi => crcBytesFit (Machine.exceptionPayload sid code) crcLo crcHi

end Sys2Proof
end

