-- ==== Sys2Proof/Decode.lean ====
section
/-! DEFINITION. Decoding: total on every command word and on every byte sequence from the link, rejecting by name; and the encoder. -/

namespace Sys2Proof

open Machine

/-- Why the decoder finds no instruction. -/
inductive Reject where
  /-- `OP = 0x00` or `OP` in `0x0C` to `0xFF` (R56). -/
  | unassignedOp
  /-- A non-zero bit in a field that R54 marks 0 (R56). -/
  | nonzeroField
  /-- Bytes from the link that have the form of neither frame row (R45). -/
  | notAFrame
deriving DecidableEq, Repr

/-- An operation without operands: `A` and `B` all zero (R54). -/
def noOperand (a b : Half) (i : Instr) : Except Reject Instr :=
  if a = 0#16 ∧ b = 0#16 then .ok i else .error .nonzeroField

/-- An operation with the byte operand `B[7:0]`: `A` and `B[15:8]` zero (R54). -/
def byteOperand (a b : Half) (i : Byte → Instr) : Except Reject Instr :=
  if a = 0#16 ∧ hi b = 0#8 then .ok (i (lo b)) else .error .nonzeroField

/-- An operation with the 16-bit operand `B`: `A` zero (R54). -/
def halfOperand (a b : Half) (i : Half → Instr) : Except Reject Instr :=
  if a = 0#16 then .ok (i b) else .error .nonzeroField

/-- The instruction of an operation code and its two operand fields (R54, R56). -/
def decodeFields (op : Nat) (a b : Half) : Except Reject Instr :=
  match op with
  | 0x01 => noOperand a b .crcinit
  | 0x02 => byteOperand a b .crcbyte
  | 0x03 => halfOperand a b .setid
  | 0x04 => .ok (.encwsr a b)
  | 0x05 => noOperand a b .rotcw
  | 0x06 => noOperand a b .rotccw
  | 0x07 => halfOperand a b .setfreq
  | 0x08 => noOperand a b .stop
  | 0x09 => noOperand a b .rxclr
  | 0x0A => byteOperand a b .rxpush
  | 0x0B => byteOperand a b .dec
  | _ => .error .unassignedOp

/-- Decoding a command word (R53, R55). -/
def decodeCommand (cw : CommandWord) : Except Reject Instr :=
  decodeFields (fieldOp cw).toNat (fieldA cw) (fieldB cw)

/-- Reading the bytes from the link as one of the two frame rows (R46, R47): 8 bytes with function code `0x06`, or 5 bytes
with `0x86`. The CRC bytes are kept, not checked: that is `DEC`'s work. -/
def decodeFrame : List Byte → Except Reject Instr
  | [sid, fc, rh, rl, vh, vl, cl, ch] =>
    if fc = Config.fcWsr then .ok (.frameWsr sid (join rh rl) (join vh vl) cl ch) else .error .notAFrame
  | [sid, fc, code, cl, ch] =>
    if fc = Config.fcWsr ||| Config.exceptionBit then .ok (.frameException sid code cl ch)
    else .error .notAFrame
  | _ => .error .notAFrame

/-- Decoding what the host presents: command words and frames are different spaces (R60). -/
def decode : Presented → Except Reject Instr
  | .command cw => decodeCommand cw
  | .response bytes => decodeFrame bytes

/-- The encoder (R46, R47, R53, R54). -/
def encode : Instr → Presented
  | .crcinit => .command (commandWord 0x01#8 0#16 0#16)
  | .crcbyte b => .command (commandWord 0x02#8 0#16 (join 0#8 b))
  | .setid id => .command (commandWord 0x03#8 0#16 id)
  | .encwsr addr val => .command (commandWord 0x04#8 addr val)
  | .rotcw => .command (commandWord 0x05#8 0#16 0#16)
  | .rotccw => .command (commandWord 0x06#8 0#16 0#16)
  | .setfreq val => .command (commandWord 0x07#8 0#16 val)
  | .stop => .command (commandWord 0x08#8 0#16 0#16)
  | .rxclr => .command (commandWord 0x09#8 0#16 0#16)
  | .rxpush b => .command (commandWord 0x0A#8 0#16 (join 0#8 b))
  | .dec efc => .command (commandWord 0x0B#8 0#16 (join 0#8 efc))
  | .frameWsr sid addr val crcLo crcHi => .response (wsrPayload sid addr val ++ [crcLo, crcHi])
  | .frameException sid code crcLo crcHi => .response (exceptionPayload sid code ++ [crcLo, crcHi])

/-- One command-word row of R55: a word `w` matches when `w AND mask = pattern`. -/
structure CommandRow where
  mnemonic : String
  pattern : CommandWord
  mask : CommandWord
deriving DecidableEq, Repr

/-- `w AND mask = pattern` (R55). -/
def CommandRow.fits (r : CommandRow) (w : CommandWord) : Bool := w &&& r.mask == r.pattern

/-- The eleven rows of R55. -/
def commandRows : List CommandRow :=
  [⟨"CRCINIT", 0x0100000000#40, 0xFFFFFFFFFF#40⟩,
   ⟨"CRCBYTE", 0x0200000000#40, 0xFFFFFFFF00#40⟩,
   ⟨"SETID", 0x0300000000#40, 0xFFFFFF0000#40⟩,
   ⟨"ENCWSR", 0x0400000000#40, 0xFF00000000#40⟩,
   ⟨"ROTCW", 0x0500000000#40, 0xFFFFFFFFFF#40⟩,
   ⟨"ROTCCW", 0x0600000000#40, 0xFFFFFFFFFF#40⟩,
   ⟨"SETFREQ", 0x0700000000#40, 0xFFFFFF0000#40⟩,
   ⟨"STOP", 0x0800000000#40, 0xFFFFFFFFFF#40⟩,
   ⟨"RXCLR", 0x0900000000#40, 0xFFFFFFFFFF#40⟩,
   ⟨"RXPUSH", 0x0A00000000#40, 0xFFFFFFFF00#40⟩,
   ⟨"DEC", 0x0B00000000#40, 0xFFFFFFFF00#40⟩]

/-- The row number `w` of the opcode table as the host would present it (log 2): of 40 bits or fewer, a command word, and
where it is no legal command word the five bytes of a frame; of 41 to 64 bits, the eight bytes of a frame; byte 0 of a
frame is its most significant byte (R45). -/
def tableWord (nbits w : Nat) : Presented :=
  if nbits ≤ 40 then
    match decodeCommand (BitVec.ofNat 40 w), decodeFrame (frame5Bytes (BitVec.ofNat 40 w)) with
    | .error _, .ok _ => .response (frame5Bytes (BitVec.ofNat 40 w))
    | _, _ => .command (BitVec.ofNat 40 w)
  else if nbits ≤ 64 then .response (frame8Bytes (BitVec.ofNat 64 w))
  else .response []

/-- The instruction the decoder reads from a row number of the opcode table. -/
def decodeTableWord (nbits w : Nat) : Option Instr := (decode (tableWord nbits w)).toOption

end Sys2Proof
end

