-- ==== Sys2Proof/Machine/Flags.lean ====
section
/-! DEFINITION. Status codes (R20), reads of the two buffers (R31), the derived flags (R16, R92, R93) and the five views (R22). -/

namespace Sys2Proof.Machine

/-- The 4-bit code of an outcome (R20). -/
def Status.code : Status → BitVec 4
  | .idle => 0x0#4
  | .ok => 0x1#4
  | .ack => 0x2#4
  | .checksumMismatch => 0x3#4
  | .unexpectedSlave => 0x4#4
  | .malformedFrame => 0x5#4
  | .slaveException => 0x6#4
  | .idRejected => 0x7#4
  | .notConfigured => 0x8#4
  | .rxOverflow => 0x9#4
  | .illegalOp => 0xA#4

/-- The byte listed at an address, if something has written it. -/
def Memory.read : Memory → Nat → Option Byte
  | [], _ => none
  | (k, v) :: m, a => if a = k then some v else Memory.read m a

/-- `MemRead(TX, a, 1)` (R31): the byte, or a free value while `TXVALID = 0` (U1). -/
def State.txByte (a : Nat) (s : State) : Byte :=
  if s.txValid then (Memory.read s.tx a).getD (Config.freeByte .tx s.epoch a)
  else Config.freeByte .tx s.epoch a

/-- `MemRead(RX, a, 1)` (R31): the byte below `RXLEN`, a free value at and above it (U2). -/
def State.rxByte (a : Nat) (s : State) : Byte :=
  if a < s.rxLen.val then (Memory.read s.rx a).getD (Config.freeByte .rx s.epoch a)
  else Config.freeByte .rx s.epoch a

/-- `RXBUF[0 .. RXLEN)`. -/
def State.rxBytes (s : State) : List Byte := (List.range s.rxLen.val).map fun a => s.rxByte a

/-- `TXLEN` (R16). -/
def State.txLen (s : State) : Nat := if s.txValid then Config.reqLen else 0

/-- `RXNEED` (R92). -/
def State.rxNeed (s : State) : Nat := need s.rxBytes

/-- `RXCOMPLETE` (R93). -/
def State.rxComplete (s : State) : Bool := s.rxNeed ≤ s.rxLen.val

/-- View 0, `CRCV` (R22). -/
def State.viewCrcv (s : State) : Half := s.crc

/-- View 1, `CFG` (R22): `[7:0]` SLAVEID, `[8]` IDVALID. -/
def State.viewCfg (s : State) : Half := 0#7 ++ BitVec.ofBool s.idValid ++ s.slaveId

/-- View 2, `STAT` (R22): `[3:0]` STATUS, `[15:8]` EXCODE. -/
def State.viewStat (s : State) : Half := s.excode ++ 0#4 ++ s.status.code

/-- View 3, `RXSTAT` (R22): `[3:0]` RXLEN, `[4]` RXOVF, `[5]` RXCOMPLETE, `[11:8]` RXNEED. -/
def State.viewRxstat (s : State) : Half :=
  0#4 ++ BitVec.ofNat 4 s.rxNeed ++ 0#2 ++ BitVec.ofBool s.rxComplete ++ BitVec.ofBool s.rxOvf
    ++ BitVec.ofNat 4 s.rxLen.val

/-- View 4, `TXSTAT` (R22): `[0]` TXVALID, `[7:4]` TXLEN. -/
def State.viewTxstat (s : State) : Half :=
  0#8 ++ BitVec.ofNat 4 s.txLen ++ 0#3 ++ BitVec.ofBool s.txValid

/-- The view of a number, 0 to 4 (R22); no other exists (U3). -/
def State.view (number : Nat) (s : State) : Option Half :=
  match number with
  | 0 => some s.viewCrcv
  | 1 => some s.viewCfg
  | 2 => some s.viewStat
  | 3 => some s.viewRxstat
  | 4 => some s.viewTxstat
  | _ => none

/-- The byte of a space at an address, 0 to 7 (R30); no other exists (U3). -/
def State.readByte (space : Space) (addr : Nat) (s : State) : Option Byte :=
  if addr < Config.bufCap then
    match space with
    | .tx => some (s.txByte addr)
    | .rx => some (s.rxByte addr)
  else none

end Sys2Proof.Machine
end

