-- ==== Sys2Proof/Machine/Ops.lean ====
section
/-! DEFINITION. The named operations over the state: the buffers, one update per state element, and the shared operations
that the instructions are made of. -/

namespace Sys2Proof.Machine

/-! ## The buffers -/

/-- `MemWrite` (R31): the byte listed at an address is replaced or put in its place by rising address. -/
def Memory.write : Memory → Nat → Byte → Memory
  | [], a, v => [(a, v)]
  | (k, w) :: m, a, v =>
    if a < k then (a, v) :: (k, w) :: m
    else if a = k then (a, v) :: m
    else (k, w) :: Memory.write m a v

/-- Bytes written to consecutive addresses. -/
def Memory.writeFrom : Memory → Nat → List Byte → Memory
  | m, _, [] => m
  | m, a, v :: vs => Memory.writeFrom (Memory.write m a v) (a + 1) vs

/-- The listed addresses rise, start at `low` or above and exist (R30). -/
def Memory.risesFrom : Nat → Memory → Bool
  | _, [] => true
  | low, (k, _) :: m => low ≤ k && k < Config.bufCap && Memory.risesFrom (k + 1) m

/-- The canonical form: strictly rising addresses, each of them 0 to 7. Every listed byte is one something wrote. -/
def Memory.wf (m : Memory) : Bool := Memory.risesFrom 0 m

/-! ## One update per state element -/

/-- `STATUS <- st`. -/
def State.setStatus (st : Status) (s : State) : State := { s with status := st }

/-- `CRC <- c`. -/
def State.setCrc (c : Half) (s : State) : State := { s with crc := c }

/-- `SLAVEID <- id`, `IDVALID <- 1`. -/
def State.setSlave (id : Byte) (s : State) : State := { s with slaveId := id, idValid := true }

/-- All of `TXBUF`, and `TXVALID <- 1`. -/
def State.setTx (m : Memory) (s : State) : State := { s with tx := m, txValid := true }

/-- `RXBUF` and `RXLEN`. -/
def State.setRx (m : Memory) (n : Fin 9) (s : State) : State := { s with rx := m, rxLen := n }

/-- `RXLEN <- 0`, `RXOVF <- 0`; the bytes of `RXBUF` are not erased (R90). -/
def State.clearRx (s : State) : State := { s with rxLen := 0, rxOvf := false }

/-- `RXOVF <- 1`. -/
def State.markOvf (s : State) : State := { s with rxOvf := true }

/-- `EXCODE <- c`. -/
def State.setExcode (c : Byte) (s : State) : State := { s with excode := c }

/-- A presentation is taken off the port: a new epoch begins (log 5). -/
def State.take (rest : List HostEvent) (s : State) : State :=
  { s with port := rest, epoch := s.epoch + 1 }

/-- A host read is taken off the port and answered: nothing of the block's changes (R36). -/
def State.answer (rest : List HostEvent) (v : Half) (s : State) : State :=
  { s with port := rest, reply := some v }

/-- The reset event (R125, R126): every element at its reset value. What the host has read and what it will do next are
the host's, and stay. -/
def State.resetBlock (rest : List HostEvent) (s : State) : State :=
  { State.reset with port := rest, reply := s.reply, epoch := s.epoch + 1 }

/-! ## Shared operations -/

/-- `refuse <Status>` (R108), the block's one shared form of an exception: `STATUS` is written and nothing else. -/
def State.refuse (st : Status) (s : State) : State := s.setStatus st

/-- The range check of `SETID` (R77): all 16 bits, unsigned. -/
def idLegal (id : Half) : Bool := Config.sidMin ≤ id.toNat && id.toNat ≤ Config.sidMax

/-- `SETID` (R77). -/
def State.configure (id : Half) (s : State) : State :=
  if idLegal id then (s.setSlave (lo id)).setStatus .ok else s.refuse .idRejected

/-- The common behaviour of the five encode operations (R76). -/
def State.build (addr val : Half) (s : State) : State :=
  if s.idValid then
    ((s.setTx (Memory.writeFrom s.tx 0 (encodeWSR s.slaveId addr val))).setCrc
      (crc16 (wsrPayload s.slaveId addr val))).setStatus .ok
  else s.refuse .notConfigured

/-- `RXCLR` (R90). -/
def State.clear (s : State) : State := s.clearRx.setStatus .ok

/-- `RXPUSH` (R91). -/
def State.push (b : Byte) (s : State) : State :=
  if s.rxLen = 8 then s.markOvf.refuse .rxOverflow
  else (s.setRx (Memory.write s.rx s.rxLen.val b) (s.rxLen + 1)).setStatus .ok

/-- The value `DEC` leaves in `CRC` (R95): the recomputed CRC when `RXLEN >= 5`. -/
def State.recomputedCrc (s : State) : Half :=
  if Config.excLen ≤ s.rxLen.val then crc16 (payload s.rxBytes) else s.crc

/-- An executed `DEC` (R95). -/
def State.classify (efc : Byte) (s : State) : State :=
  ((s.setCrc s.recomputedCrc).setExcode (decodeResponse s.rxBytes s.slaveId efc).2).setStatus
    (decodeResponse s.rxBytes s.slaveId efc).1

/-- `DEC` (R95), with its refusals in the order of R110. -/
def State.judge (efc : Byte) (s : State) : State :=
  if s.idValid = false then s.refuse .notConfigured
  else if s.rxOvf then s.refuse .rxOverflow
  else s.classify efc

/-- The reading loop of R100 on the bytes that arrive before the timeout: stop at `RXCOMPLETE` and `DEC 0x06`; when the
bytes run out first, the host gives up and issues no `DEC`. -/
def State.receiveLoop : List Byte → State → State
  | [], s => if s.rxComplete then s.judge Config.fcWsr else s
  | b :: bs, s => if s.rxComplete then s.judge Config.fcWsr else State.receiveLoop bs (s.push b)

/-- How the host receives one response with the block (R100). -/
def State.receive (bytes : List Byte) (s : State) : State := State.receiveLoop bytes s.clear

end Sys2Proof.Machine
end

