-- ==== Sys2Proof/Machine/Crc.lean ====
section
/-! DEFINITION. The CRC generator's operations (40_crc.md). -/

namespace Sys2Proof.Machine

/-- `CRCINIT` (R68). -/
def execCrcinit (s : State) : Host.Outcome State Fault Refusal :=
  .next ((s.setCrc Config.init).setStatus .ok)

/-- `CRCBYTE b` (R69). -/
def execCrcbyte (b : Byte) (s : State) : Host.Outcome State Fault Refusal :=
  .next ((s.setCrc (crcByte s.crc b)).setStatus .ok)

end Sys2Proof.Machine
end

