-- ==== Sys2Proof/Machine/Decoder.lean ====
section
/-! DEFINITION. The receive and decode operations (42_decoder.md). -/

namespace Sys2Proof.Machine

/-- `RXCLR` (R90). -/
def execRxclr (s : State) : Host.Outcome State Fault Refusal :=
  .next s.clear

/-- `RXPUSH b` (R91). -/
def execRxpush (b : Byte) (s : State) : Host.Outcome State Fault Refusal :=
  .next (s.push b)

/-- `DEC efc` (R95). -/
def execDec (efc : Byte) (s : State) : Host.Outcome State Fault Refusal :=
  .next (s.judge efc)

end Sys2Proof.Machine
end

