-- ==== Sys2Proof/Machine/Encoder.lean ====
section
/-! DEFINITION. The configuration operation and the five encode operations (41_encoder.md). -/

namespace Sys2Proof.Machine

/-- `SETID id` (R77). -/
def execSetid (id : Half) (s : State) : Host.Outcome State Fault Refusal :=
  .next (s.configure id)

/-- `ENCWSR addr, val` (R78). -/
def execEncwsr (addr val : Half) (s : State) : Host.Outcome State Fault Refusal :=
  .next (s.build addr val)

/-- `ROTCW` (R79). -/
def execRotcw (s : State) : Host.Outcome State Fault Refusal :=
  .next (s.build Config.regCtrl Config.valCw)

/-- `ROTCCW` (R80). -/
def execRotccw (s : State) : Host.Outcome State Fault Refusal :=
  .next (s.build Config.regCtrl Config.valCcw)

/-- `SETFREQ val` (R81). -/
def execSetfreq (val : Half) (s : State) : Host.Outcome State Fault Refusal :=
  .next (s.build Config.regFreq val)

/-- `STOP` (R82). -/
def execStop (s : State) : Host.Outcome State Fault Refusal :=
  .next (s.build Config.regFreq Config.valStop)

end Sys2Proof.Machine
end

