-- ==== Sys2Proof/Machine/Frames.lean ====
section
/-! DEFINITION. The two wire frames as they arrive from the link: the host receives them with the block by the procedure of
R100 (DEDUCED: log 3). -/

namespace Sys2Proof.Machine

/-- A frame of format F8 arrives (R46, R100). -/
def execFrameWsr (sid : Byte) (addr val : Half) (crcLo crcHi : Byte) (s : State) :
    Host.Outcome State Fault Refusal :=
  .next (s.receive (wsrPayload sid addr val ++ [crcLo, crcHi]))

/-- A frame of format F5 arrives (R47, R100). -/
def execFrameException (sid code crcLo crcHi : Byte) (s : State) :
    Host.Outcome State Fault Refusal :=
  .next (s.receive (exceptionPayload sid code ++ [crcLo, crcHi]))

end Sys2Proof.Machine
end

