-- ==== Sys2Proof/Machine/Dispatch.lean ====
section
/-! DEFINITION. One arm per instruction. -/

namespace Sys2Proof.Machine

def exec (i : Instr) (s : State) : Host.Outcome State Fault Refusal :=
  match i with
  | .crcinit => Sys2Proof.Machine.execCrcinit s
  | .crcbyte b => Sys2Proof.Machine.execCrcbyte b s
  | .setid id => Sys2Proof.Machine.execSetid id s
  | .encwsr addr val => Sys2Proof.Machine.execEncwsr addr val s
  | .rotcw => Sys2Proof.Machine.execRotcw s
  | .rotccw => Sys2Proof.Machine.execRotccw s
  | .setfreq val => Sys2Proof.Machine.execSetfreq val s
  | .stop => Sys2Proof.Machine.execStop s
  | .rxclr => Sys2Proof.Machine.execRxclr s
  | .rxpush b => Sys2Proof.Machine.execRxpush b s
  | .dec efc => Sys2Proof.Machine.execDec efc s
  | .frameWsr sid addr val crcLo crcHi => Sys2Proof.Machine.execFrameWsr sid addr val crcLo crcHi s
  | .frameException sid code crcLo crcHi => Sys2Proof.Machine.execFrameException sid code crcLo crcHi s

end Sys2Proof.Machine
end

