-- ==== Sys2Proof/Machine/HostPort.lean ====
section
/-! DEFINITION. What the block does with one host event (60_exceptions.md R120, 70_reset_and_hazards.md R125). -/

namespace Sys2Proof.Machine

/-- A presentation that decodes to no instruction: an illegal command word is refused with `IllegalOp` (R56); bytes from the
link that fit no frame row are received like any others (R100). -/
def serveUndecoded (p : Presented) (s : State) : Host.Outcome State Fault Refusal :=
  match p with
  | .command _ => .next (s.refuse .illegalOp)
  | .response bytes => .next (s.receive bytes)

/-- A presentation: the decoded instruction runs. -/
def servePresented (p : Presented) (s : State) : Host.Outcome State Fault Refusal :=
  match decode p with
  | .ok i => exec i s
  | .error _ => serveUndecoded p s

/-- A host read (R22, R30, R36): answered, or refused by name where nothing can be read (U3). A byte is answered in
bits `[7:0]`. -/
def serveRead (r : ReadRequest) (rest : List HostEvent) (s : State) : Host.Outcome State Fault Refusal :=
  match r with
  | .view number =>
    match s.view number with
    | some v => .next (s.answer rest v)
    | none => .refused (.noSuchView number)
  | .byte space addr =>
    match s.readByte space addr with
    | some b => .next (s.answer rest (b.setWidth 16))
    | none => .refused (.noSuchAddress space addr)

/-- One host event, with the events that follow it. -/
def serve (e : HostEvent) (rest : List HostEvent) (s : State) : Host.Outcome State Fault Refusal :=
  match e with
  | .present p => servePresented p (s.take rest)
  | .read r => serveRead r rest s
  | .reset => .next (s.resetBlock rest)

end Sys2Proof.Machine
end

