-- ==== Sys2Proof/Machine/Step.lean ====
section
/-! DEFINITION. One step: the block serves the host's next event; with none, it "is idle between operations and keeps all
state while idle" (R117). -/

namespace Sys2Proof.Machine

/-- One step. -/
def step (s : State) : Host.Outcome State Fault Refusal :=
  match s.port with
  | [] => .next s
  | e :: rest => serve e rest s

/-- The state with a row number of the opcode table presented next (log 1, log 2). -/
def State.withFetchWord (s : State) (nbits w : Nat) : State :=
  { s with port := .present (tableWord nbits w) :: s.port }

end Sys2Proof.Machine
end

