-- ==== Sys2Proof/Safety.lean ====
section
/-! DEFINITION. What a sound state of the block is, which operations may write which element (R24), and runs of several operations. -/

namespace Sys2Proof.Machine

/-- `SLAVEID` legal: 1 to 247 (R13). -/
def idInRange (sid : Byte) : Prop := Config.sidMin ≤ sid.toNat ∧ sid.toNat ≤ Config.sidMax

/-- `TXBUF` holds a frame the encoder built for a legal id (R15, R16, R59). -/
def State.txHoldsFrame (s : State) : Prop :=
  ∃ sid addr val, idInRange sid ∧ ∀ a, a < 8 → Memory.read s.tx a = (encodeWSR sid addr val)[a]?

/-- What holds of the block whatever the host does: both buffers canonical; a configured id legal (R13) and an unconfigured
one 0; a valid transmit buffer holds a built frame and an invalid one nothing (R16); every byte below `RXLEN` was received
(R17); an overflow only on a full buffer (R18). -/
structure State.Inv (s : State) : Prop where
  txWf : Memory.wf s.tx = true
  rxWf : Memory.wf s.rx = true
  idLegal : s.idValid = true → idInRange s.slaveId
  idUnset : s.idValid = false → s.slaveId = 0x00#8
  txFrame : s.txValid = true → s.txHoldsFrame
  txEmpty : s.txValid = false → s.tx = []
  rxReceived : ∀ a, a < s.rxLen.val → (Memory.read s.rx a).isSome = true
  ovfFull : s.rxOvf = true → s.rxLen = 8

/-- Both buffers are in canonical form. -/
def State.memoryCanonical (s : State) : Prop := Memory.wf s.tx = true ∧ Memory.wf s.rx = true

end Sys2Proof.Machine

namespace Sys2Proof

/-- The five encode operations (R76). -/
def Instr.isEncode : Instr → Bool
  | .crcinit => false
  | .crcbyte _ => false
  | .setid _ => false
  | .encwsr _ _ => true
  | .rotcw => true
  | .rotccw => true
  | .setfreq _ => true
  | .stop => true
  | .rxclr => false
  | .rxpush _ => false
  | .dec _ => false
  | .frameWsr _ _ _ _ _ => false
  | .frameException _ _ _ _ => false

/-- A frame that arrives from the link. -/
def Instr.isFrame : Instr → Bool
  | .crcinit => false
  | .crcbyte _ => false
  | .setid _ => false
  | .encwsr _ _ => false
  | .rotcw => false
  | .rotccw => false
  | .setfreq _ => false
  | .stop => false
  | .rxclr => false
  | .rxpush _ => false
  | .dec _ => false
  | .frameWsr _ _ _ _ _ => true
  | .frameException _ _ _ _ => true

/-- `DEC`. -/
def Instr.isDec : Instr → Bool
  | .crcinit => false
  | .crcbyte _ => false
  | .setid _ => false
  | .encwsr _ _ => false
  | .rotcw => false
  | .rotccw => false
  | .setfreq _ => false
  | .stop => false
  | .rxclr => false
  | .rxpush _ => false
  | .dec _ => true
  | .frameWsr _ _ _ _ _ => false
  | .frameException _ _ _ _ => false

/-- `RXPUSH`. -/
def Instr.isPush : Instr → Bool
  | .crcinit => false
  | .crcbyte _ => false
  | .setid _ => false
  | .encwsr _ _ => false
  | .rotcw => false
  | .rotccw => false
  | .setfreq _ => false
  | .stop => false
  | .rxclr => false
  | .rxpush _ => true
  | .dec _ => false
  | .frameWsr _ _ _ _ _ => false
  | .frameException _ _ _ _ => false

/-- `CRCINIT` and `CRCBYTE`. -/
def Instr.isCrc : Instr → Bool
  | .crcinit => true
  | .crcbyte _ => true
  | .setid _ => false
  | .encwsr _ _ => false
  | .rotcw => false
  | .rotccw => false
  | .setfreq _ => false
  | .stop => false
  | .rxclr => false
  | .rxpush _ => false
  | .dec _ => false
  | .frameWsr _ _ _ _ _ => false
  | .frameException _ _ _ _ => false

/-- `SETID`. -/
def Instr.isSetid : Instr → Bool
  | .crcinit => false
  | .crcbyte _ => false
  | .setid _ => true
  | .encwsr _ _ => false
  | .rotcw => false
  | .rotccw => false
  | .setfreq _ => false
  | .stop => false
  | .rxclr => false
  | .rxpush _ => false
  | .dec _ => false
  | .frameWsr _ _ _ _ _ => false
  | .frameException _ _ _ _ => false

/-- The outcome codes an instruction can leave in `STATUS` (R20, R106, R109); for a frame, those of the composite of log 3
(DEDUCED: the spec lists none). -/
def Instr.outcomes : Instr → List Machine.Status
  | .crcinit | .crcbyte _ | .rxclr => [.ok]
  | .setid _ => [.ok, .idRejected]
  | .encwsr _ _ | .rotcw | .rotccw | .setfreq _ | .stop => [.ok, .notConfigured]
  | .rxpush _ => [.ok, .rxOverflow]
  | .dec _ => [.ack, .checksumMismatch, .unexpectedSlave, .malformedFrame, .slaveException,
      .notConfigured, .rxOverflow]
  | .frameWsr _ _ _ _ _ => [.ack, .checksumMismatch, .unexpectedSlave, .notConfigured]
  | .frameException _ _ _ _ => [.slaveException, .checksumMismatch, .unexpectedSlave, .notConfigured]

/-- A list of instructions run one after the other; it stops at the first that does not answer a next state. -/
def Machine.execAll : List Instr → Machine.State → Host.Outcome Machine.State Machine.Fault Machine.Refusal
  | [], s => .next s
  | i :: is, s =>
    match Machine.exec i s with
    | .next t => Machine.execAll is t
    | .fault f => .fault f
    | .refused r => .refused r

end Sys2Proof
end

