-- ==== Sys2Proof/Certificates/Slice0/Obligations.lean ====
section
/-! DEFINITION. The statements for the provers, in the order of the spec's files. Each docstring names the rule it formalises. -/

open Sys2Proof Sys2Proof.Machine

/-! ## Encodings (30_encoding.md) -/

/-- R53 to R55, R46, R47: no bit of an encoding is dropped. Decoding an encoded instruction gives it back, with every
operand at every value. -/
def Obligations.DecodeOfEncodeIsInstr : Prop :=
  ∀ i : Instr, decode (encode i) = .ok i

/-- R55, R60: what decodes is the encoding of what it decodes to, so no two words and no two byte sequences share a meaning. -/
def Obligations.EncodeOfDecodeIsWord : Prop :=
  ∀ (p : Presented) (i : Instr), decode p = .ok i → encode i = p

/-- R55, R56: decoding is total. Every word fits exactly one row of the table and a step runs that row's operation, or it fits
none and a step refuses it with `IllegalOp`. The port, from which the step takes the word, is the model's choice (log 1); of
the epoch (log 5) nothing is said. -/
def Obligations.EveryWordFitsOneRowOrIsIllegal : Prop :=
  ∀ cw : CommandWord,
    (∃ i r, decodeCommand cw = .ok i ∧ r ∈ commandRows ∧ r.mnemonic = i.mnemonic ∧
        cw &&& r.mask = r.pattern ∧ (∀ r' ∈ commandRows, cw &&& r'.mask = r'.pattern → r' = r) ∧
        ∀ (s : State) (rest : List HostEvent), s.port = .present (.command cw) :: rest →
          ∃ n, step s = exec i { s with port := rest, epoch := n }) ∨
    ((∃ e, decodeCommand cw = .error e) ∧ (∀ r ∈ commandRows, cw &&& r.mask ≠ r.pattern) ∧
        ∀ (s : State) (rest : List HostEvent), s.port = .present (.command cw) :: rest →
          ∃ n, step s = .next { s with port := rest, epoch := n, status := .illegalOp })

/-- R54, R46, R47: one word for each operation, laid out by hand from the table of R54, and the frames of V11 and V26 decode
to what they stand for (a sanity statement). -/
def Obligations.SampleWordsDecode : Prop :=
  decodeCommand 0x0100000000#40 = .ok .crcinit ∧
  decodeCommand 0x0200000060#40 = .ok (.crcbyte 0x60#8) ∧
  decodeCommand 0x0300000101#40 = .ok (.setid 0x0101#16) ∧
  decodeCommand 0x0450001388#40 = .ok (.encwsr 0x5000#16 0x1388#16) ∧
  decodeCommand 0x0500000000#40 = .ok .rotcw ∧
  decodeCommand 0x0600000000#40 = .ok .rotccw ∧
  decodeCommand 0x0700001388#40 = .ok (.setfreq 0x1388#16) ∧
  decodeCommand 0x0800000000#40 = .ok .stop ∧
  decodeCommand 0x0900000000#40 = .ok .rxclr ∧
  decodeCommand 0x0A000000AA#40 = .ok (.rxpush 0xAA#8) ∧
  decodeCommand 0x0B00000006#40 = .ok (.dec 0x06#8) ∧
  decodeFrame [0x01#8, 0x06#8, 0x60#8, 0x00#8, 0x00#8, 0x01#8, 0x56#8, 0x0A#8] =
    .ok (.frameWsr 0x01#8 0x6000#16 0x0001#16 0x56#8 0x0A#8) ∧
  decodeFrame [0x01#8, 0x86#8, 0x02#8, 0xC3#8, 0xA1#8] =
    .ok (.frameException 0x01#8 0x02#8 0xC3#8 0xA1#8)

/-- R56: a command word with an unassigned `OP`, or with a non-zero bit in a field that must be zero, writes `STATUS` with
`IllegalOp` and changes nothing else of the block. The port, from which the step
takes the word, is the model's choice (log 1); of the epoch (log 5) nothing is said. -/
def Obligations.IllegalWordOnlyWritesStatus : Prop :=
  ∀ (s : State) (cw : CommandWord) (rest : List HostEvent),
    s.port = .present (.command cw) :: rest →
    (let op := (cw.extractLsb' 32 8).toNat
     op = 0x00 ∨ 0x0C ≤ op ∨
     ((op = 0x01 ∨ op = 0x05 ∨ op = 0x06 ∨ op = 0x08 ∨ op = 0x09) ∧ cw.extractLsb' 0 32 ≠ 0#32) ∨
     ((op = 0x02 ∨ op = 0x0A ∨ op = 0x0B) ∧ cw.extractLsb' 8 24 ≠ 0#24) ∨
     ((op = 0x03 ∨ op = 0x07) ∧ cw.extractLsb' 16 16 ≠ 0#16)) →
    ∃ n, step s = .next { s with port := rest, epoch := n, status := .illegalOp }

/-! ## The step and the host's events (60_exceptions.md, 70_reset_and_hazards.md) -/

/-- R37, R53: a step runs the instruction that the presented command word decodes to. That one step also runs a whole frame
(log 3), that what the host presents stands in the port, from which the step takes it (log 1), and that a new epoch begins
(log 5) are the model's choices. -/
def Obligations.StepRunsDecodedInstr : Prop :=
  ∀ (s : State) (p : Presented) (rest : List HostEvent) (i : Instr),
    s.port = .present p :: rest → decode p = .ok i →
    step s = exec i { s with port := rest, epoch := s.epoch + 1 }

/-- R117: with nothing presented the block is idle and keeps all state. That "nothing presented" is an empty port is the
model's choice (log 1). -/
def Obligations.IdleBlockKeepsState : Prop :=
  ∀ s : State, s.port = [] → step s = .next s

/-- R118, R105: whatever command word is presented, in whatever state, the step completes and leaves an outcome in
`STATUS`. That the bytes of a whole response complete in one step too is the model's choice (log 3), and so is the port that
holds the events to come (log 1). -/
def Obligations.EveryPresentationCompletes : Prop :=
  ∀ (s : State) (p : Presented) (rest : List HostEvent), s.port = .present p :: rest →
    ∃ t, step s = .next t ∧ t.port = rest ∧ t.status ≠ .idle

/-- R118, U3: the only event on which a step stops is a host read of something that does not exist. That reads are events
(logs 1 and 6) and that these stop (log 7) are the model's choices. -/
def Obligations.OnlyHostReadsStop : Prop :=
  ∀ s : State, (∀ t, step s ≠ .next t) →
    ∃ r rest, s.port = .read r :: rest ∧
      ((∃ n, r = .view n ∧ 5 ≤ n) ∨ (∃ space a, r = .byte space a ∧ 8 ≤ a))

/-- R126: the reset value of every element the rule gives one (the buffer bytes it leaves unspecified: nothing is said of
them), and of the derived values; and every one of the eleven operations is accepted at once. -/
def Obligations.ResetLeavesListedValues : Prop :=
  State.reset.crc = 0xFFFF#16 ∧ State.reset.slaveId = 0x00#8 ∧ State.reset.idValid = false ∧
  State.reset.txValid = false ∧ State.reset.rxLen = 0 ∧ State.reset.rxOvf = false ∧
  State.reset.excode = 0x00#8 ∧ State.reset.status = .idle ∧
  State.reset.rxNeed = 5 ∧ State.reset.rxComplete = false ∧ State.reset.txLen = 0 ∧
  ∀ i : Instr, i.isFrame = false → ∃ t, exec i State.reset = .next t

/-- R125, R126: the reset event puts every element that R126 gives a value at that value, from any state. The rest is the
model's choice: both buffers list nothing, though R126 leaves their bytes unspecified (logs 9 and 4), the epoch grows by one
(log 5), and the events still to come and the host's latest answer are kept (logs 1, 6 and 11). -/
def Obligations.ResetEventRestoresReset : Prop :=
  ∀ (s : State) (rest : List HostEvent), s.port = .reset :: rest →
    step s = .next { State.reset with port := rest, reply := s.reply, epoch := s.epoch + 1 }

/-- R36: a legal host read is answered and changes no element of the block; what it answers depends on the block's elements
only, so it is repeated with the same result until the next operation. The events to come and the answer are the model's
own fields (logs 1 and 6). -/
def Obligations.HostReadsChangeNothingAndRepeat : Prop :=
  ∀ (s : State) (r : ReadRequest),
    ((∃ n, r = .view n ∧ n ≤ 4) ∨ (∃ space a, r = .byte space a ∧ a ≤ 7)) →
    ∃ v, ∀ (rest : List HostEvent) (reply : Option Half),
      step { s with port := .read r :: rest, reply := reply } =
        .next { s with port := rest, reply := some v }

/-- R31, R37, U1, U2: which value a byte read gives, and that a step on a host read of the byte replies that value,
zero-extended, and changes nothing else. Where nothing has written the byte the value is the model's free value (log 4);
nothing is said of what that value is. The port and the reply are the model's own fields (logs 1 and 6). -/
def Obligations.ByteReadsGiveWrittenBytes : Prop :=
  ∀ (s : State) (a : Nat), a ≤ 7 →
    (∀ b, s.txValid = true → Memory.read s.tx a = some b → s.readByte .tx a = some b) ∧
    (s.txValid = false → s.readByte .tx a = some (Config.freeByte .tx s.epoch a)) ∧
    (∀ b, a < s.rxLen.val → Memory.read s.rx a = some b → s.readByte .rx a = some b) ∧
    (s.rxLen.val ≤ a → s.readByte .rx a = some (Config.freeByte .rx s.epoch a)) ∧
    ∀ space, ∃ b, s.readByte space a = some b ∧
      ∀ rest, s.port = .read (.byte space a) :: rest →
        step s = .next { s with port := rest, reply := some (0x00#8 ++ b) }

/-- R30, U3: an address above 7 and a view above 4 do not exist; a host read of one is refused by name (log 7). That reads are
events is the model's choice (logs 1 and 6). -/
def Obligations.ReadsOutsideInterfaceStop : Prop :=
  ∀ (s : State) (rest : List HostEvent),
    (∀ n, 5 ≤ n → s.port = .read (.view n) :: rest → step s = .refused (.noSuchView n)) ∧
    (∀ space a, 8 ≤ a → s.port = .read (.byte space a) :: rest → step s = .refused (.noSuchAddress space a))

/-- R22, R16: the content of the five views, bit field by bit field; all bits not listed are 0; there is no sixth; reading one
answers it and has no side effect. `TXLEN` is 8 with `TXVALID` and 0 without. That a read is an
event of the port and its answer stands in the reply is the model's choice (logs 1 and 6). -/
def Obligations.ViewsShowListedFields : Prop :=
  ∀ s : State,
    s.view 0 = some s.crc ∧
    (∃ v, s.view 1 = some v ∧ v.extractLsb' 0 8 = s.slaveId ∧ v.getLsbD 8 = s.idValid ∧
      v.extractLsb' 9 7 = 0#7) ∧
    (∃ v, s.view 2 = some v ∧ v.extractLsb' 0 4 = s.status.code ∧ v.extractLsb' 4 4 = 0#4 ∧
      v.extractLsb' 8 8 = s.excode) ∧
    (∃ v, s.view 3 = some v ∧ (v.extractLsb' 0 4).toNat = s.rxLen.val ∧ v.getLsbD 4 = s.rxOvf ∧
      v.getLsbD 5 = s.rxComplete ∧ v.extractLsb' 6 2 = 0#2 ∧ (v.extractLsb' 8 4).toNat = s.rxNeed ∧
      v.extractLsb' 12 4 = 0#4) ∧
    (∃ v, s.view 4 = some v ∧ v.getLsbD 0 = s.txValid ∧ v.extractLsb' 1 3 = 0#3 ∧
      (v.extractLsb' 4 4).toNat = s.txLen ∧ v.extractLsb' 8 8 = 0#8) ∧
    (s.txValid = true → s.txLen = 8) ∧ (s.txValid = false → s.txLen = 0) ∧
    (∀ n, 5 ≤ n → s.view n = none) ∧
    ∀ n v, s.view n = some v → ∀ rest, s.port = .read (.view n) :: rest →
      step s = .next { s with port := rest, reply := some v }

/-- R20: the code of each outcome. -/
def Obligations.StatusCodesAreThoseListed : Prop :=
  Status.idle.code = 0x0#4 ∧ Status.ok.code = 0x1#4 ∧ Status.ack.code = 0x2#4 ∧
  Status.checksumMismatch.code = 0x3#4 ∧ Status.unexpectedSlave.code = 0x4#4 ∧
  Status.malformedFrame.code = 0x5#4 ∧ Status.slaveException.code = 0x6#4 ∧
  Status.idRejected.code = 0x7#4 ∧ Status.notConfigured.code = 0x8#4 ∧
  Status.rxOverflow.code = 0x9#4 ∧ Status.illegalOp.code = 0xA#4

/-! ## The CRC generator (40_crc.md) -/

/-- R66: `crc_byte` is the bit loop of the rule: the byte is XORed into the low half, and eight times the low bit of the
value before the shift decides whether the shifted value is XORed with `0xA001`. -/
def Obligations.CrcByteFollowsBitLoop : Prop :=
  ∀ (acc : Half) (b : Byte), ∃ f : Nat → Half,
    f 0 = acc ^^^ (0#8 ++ b) ∧
    (∀ k, k < 8 → f (k + 1) =
      if (f k).getLsbD 0 = true then (f k >>> 1) ^^^ 0xA001#16 else f k >>> 1) ∧
    crcByte acc b = f 8

/-- R65: `crc16` starts at `0xFFFF` and steps through the bytes in order; its result is the final accumulator. -/
def Obligations.Crc16FoldsBytesInOrder : Prop :=
  crc16 [] = 0xFFFF#16 ∧ ∀ (s : List Byte) (b : Byte), crc16 (s ++ [b]) = crcByte (crc16 s) b

/-- R72: a sequence followed by its own CRC bytes, low byte first, has CRC 0. -/
def Obligations.CrcResidueIsZero : Prop :=
  ∀ p : List Byte, crc16 (p ++ [(crc16 p).extractLsb' 0 8, (crc16 p).extractLsb' 8 8]) = 0x0000#16

/-- R67, G1: `crc_byte` is linear over XOR and, for a fixed byte, one to one in the accumulator. -/
def Obligations.CrcByteIsLinearAndInjective : Prop :=
  ∀ (a a' : Half) (b b' : Byte),
    crcByte (a ^^^ a') (b ^^^ b') = crcByte a b ^^^ crcByte a' b' ∧
    (crcByte a b = crcByte a' b → a = a')

/-- R68: `CRCINIT` writes `CRC` with `0xFFFF` and `STATUS` with `Ok`, in any state, and nothing else; its word. -/
def Obligations.CrcinitSetsStartValue : Prop :=
  (∀ s : State, exec .crcinit s = .next { s with crc := 0xFFFF#16, status := .ok }) ∧
  ∀ w, decodeCommand w = .ok .crcinit ↔ w = 0x01#8 ++ 0x0000#16 ++ 0x0000#16

/-- R69: `CRCBYTE` steps `CRC` by the byte and writes `STATUS` with `Ok`, in any state, and nothing else; its word. -/
def Obligations.CrcbyteStepsAccumulator : Prop :=
  ∀ b : Byte,
    (∀ s : State, exec (.crcbyte b) s = .next { s with crc := crcByte s.crc b, status := .ok }) ∧
    ∀ w, decodeCommand w = .ok (.crcbyte b) ↔ w = 0x02#8 ++ 0x0000#16 ++ 0x00#8 ++ b

/-- R58, first row: `CRCINIT` and one `CRCBYTE` per byte leave `crc16` of the bytes in `CRC`, and change nothing else but
`STATUS`. -/
def Obligations.CrcOperationsComputeCrc16 : Prop :=
  ∀ (s : State) (bs : List Byte),
    execAll (.crcinit :: bs.map Instr.crcbyte) s = .next { s with crc := crc16 bs, status := .ok }

/-! ## Configuration and the encoder (41_encoder.md) -/

/-- R77: `SETID` accepts 1 to 247, compared on all 16 bits, and refuses every other value with nothing but `STATUS` written;
its word. -/
def Obligations.SetidAcceptsOneTo247 : Prop :=
  ∀ (id : Half) (s : State),
    (∀ w, decodeCommand w = .ok (.setid id) ↔ w = 0x03#8 ++ 0x0000#16 ++ id) ∧
    (1 ≤ id.toNat → id.toNat ≤ 247 →
      exec (.setid id) s =
        .next { s with slaveId := BitVec.ofNat 8 id.toNat, idValid := true, status := .ok }) ∧
    (id.toNat = 0 ∨ 248 ≤ id.toNat → exec (.setid id) s = .next { s with status := .idRejected })

/-- R75: the eight bytes of `encodeWSR`. -/
def Obligations.EncodeWsrLaysOutFrame : Prop :=
  ∀ (sid : Byte) (addr val : Half),
    let p := [sid, 0x06#8, addr.extractLsb' 8 8, addr.extractLsb' 0 8, val.extractLsb' 8 8,
      val.extractLsb' 0 8]
    encodeWSR sid addr val = p ++ [(crc16 p).extractLsb' 0 8, (crc16 p).extractLsb' 8 8]

/-- R76, R78 to R82: each encode operation determines its register and value; configured, it writes all eight bytes of
`TXBUF`, `TXVALID`, `CRC` and `STATUS` and nothing else; unconfigured, it writes `STATUS` with `NotConfigured` and nothing
else; and the word of each. -/
def Obligations.EncodeOpsBuildFrameOrRefuse : Prop :=
  ∀ (s : State) (i : Instr) (addr val : Half) (word : CommandWord),
    (i = .encwsr addr val ∧ word = 0x04#8 ++ addr ++ val ∨
      i = .rotcw ∧ addr = 0x6000#16 ∧ val = 0x0001#16 ∧ word = 0x0500000000#40 ∨
      i = .rotccw ∧ addr = 0x6000#16 ∧ val = 0x0002#16 ∧ word = 0x0600000000#40 ∨
      i = .setfreq val ∧ addr = 0x5000#16 ∧ word = 0x07#8 ++ 0x0000#16 ++ val ∨
      i = .stop ∧ addr = 0x5000#16 ∧ val = 0x0000#16 ∧ word = 0x0800000000#40) →
    (∀ w, decodeCommand w = .ok i ↔ w = word) ∧
    (s.idValid = true →
      ∃ t c, exec i s = .next t ∧
        c = crc16 [s.slaveId, 0x06#8, addr.extractLsb' 8 8, addr.extractLsb' 0 8, val.extractLsb' 8 8,
          val.extractLsb' 0 8] ∧
        Memory.read t.tx 0 = some s.slaveId ∧ Memory.read t.tx 1 = some 0x06#8 ∧
        Memory.read t.tx 2 = some (addr.extractLsb' 8 8) ∧ Memory.read t.tx 3 = some (addr.extractLsb' 0 8) ∧
        Memory.read t.tx 4 = some (val.extractLsb' 8 8) ∧ Memory.read t.tx 5 = some (val.extractLsb' 0 8) ∧
        Memory.read t.tx 6 = some (c.extractLsb' 0 8) ∧ Memory.read t.tx 7 = some (c.extractLsb' 8 8) ∧
        (∀ a, 8 ≤ a → Memory.read t.tx a = Memory.read s.tx a) ∧
        t = { s with tx := t.tx, txValid := true, crc := c, status := .ok }) ∧
    (s.idValid = false → exec i s = .next { s with status := .notConfigured })

/-- R58 (which the spec derives from R78 to R82), R83: the fixed-operand operations have the same effect on all state as the general form, and `STOP` as
`SETFREQ 0x0000`. -/
def Obligations.FixedCommandsEqualGeneralForm : Prop :=
  ∀ (s : State) (v : Half),
    exec .rotcw s = exec (.encwsr 0x6000#16 0x0001#16) s ∧
    exec .rotccw s = exec (.encwsr 0x6000#16 0x0002#16) s ∧
    exec (.setfreq v) s = exec (.encwsr 0x5000#16 v) s ∧
    exec .stop s = exec (.encwsr 0x5000#16 0x0000#16) s ∧
    exec .stop s = exec (.setfreq 0x0000#16) s

/-- R84: the round trip, of the functions and of the operations: an exact echo of an encoded frame is an `Ack`. -/
def Obligations.EchoOfEncodedFrameIsAck : Prop :=
  ∀ (sid : Byte) (addr val : Half), 1 ≤ sid.toNat → sid.toNat ≤ 247 →
    decodeResponse (encodeWSR sid addr val) sid 0x06#8 = (.ack, 0x00#8) ∧
    ∀ s : State, ∃ u, execAll [.setid (sid.setWidth 16), .encwsr addr val] s = .next u ∧
      ∀ bs : List Byte, bs.length = 8 → (∀ a, a < 8 → Memory.read u.tx a = bs[a]?) →
        ∃ t, execAll (.rxclr :: (bs.map Instr.rxpush ++ [.dec 0x06#8])) u = .next t ∧ t.status = .ack

/-! ## Receiving and decoding (42_decoder.md) -/

/-- R90: `RXCLR` empties the buffer and clears the overflow mark, in any state, and writes nothing else: the bytes are not
erased; its word. -/
def Obligations.RxclrEmptiesBuffer : Prop :=
  (∀ s : State, exec .rxclr s = .next { s with rxLen := 0, rxOvf := false, status := .ok }) ∧
  ∀ w, decodeCommand w = .ok .rxclr ↔ w = 0x09#8 ++ 0x0000#16 ++ 0x0000#16

/-- R91: `RXPUSH` stores the byte at address `RXLEN`, which then grows by one, and changes no other byte; with `RXLEN = 8`
the byte is discarded and only `RXOVF` and `STATUS` are written; its word. -/
def Obligations.RxpushStoresAtRxlenOrOverflows : Prop :=
  ∀ (s : State) (b : Byte),
    (∀ w, decodeCommand w = .ok (.rxpush b) ↔ w = 0x0A#8 ++ 0x0000#16 ++ 0x00#8 ++ b) ∧
    (s.rxLen.val < 8 → ∃ t, exec (.rxpush b) s = .next t ∧
      t.rxLen.val = s.rxLen.val + 1 ∧ Memory.read t.rx s.rxLen.val = some b ∧
      (∀ a, a ≠ s.rxLen.val → Memory.read t.rx a = Memory.read s.rx a) ∧
      t = { s with rx := t.rx, rxLen := t.rxLen, status := .ok }) ∧
    (s.rxLen.val = 8 → exec (.rxpush b) s = .next { s with rxOvf := true, status := .rxOverflow })

/-- R92: `RXNEED` is 8 when at least two bytes are held and byte 1 has bit 7 clear, and 5 otherwise. -/
def Obligations.RxneedIsToldByBit7 : Prop :=
  (∀ s : List Byte, need s = match s[1]? with
    | some b1 => if b1.getLsbD 7 = false then 8 else 5
    | none => 5) ∧
  ∀ (s : State) (bs : List Byte), bs.length = s.rxLen.val →
    (∀ a, a < bs.length → Memory.read s.rx a = bs[a]?) → s.rxNeed = need bs

/-- R93: when `RXCOMPLETE` is 1, by `RXLEN` and bit 7 of byte 1. -/
def Obligations.RxcompleteByLength : Prop :=
  ∀ s : State,
    (s.rxComplete = true ↔ s.rxNeed ≤ s.rxLen.val) ∧
    (s.rxLen.val ≤ 4 → s.rxComplete = false) ∧
    (5 ≤ s.rxLen.val → s.rxLen.val ≤ 7 → s.rxComplete = (s.rxByte 1).getLsbD 7) ∧
    (s.rxLen.val = 8 → s.rxComplete = true)

/-- R94: `decodeResponse`, for every length: the tests in the rule's order, the first that fails decides. -/
def Obligations.DecodeResponseTestsInOrder : Prop :=
  (∀ (s : List Byte) (esid efc : Byte), s.length < 5 →
    decodeResponse s esid efc = (.malformedFrame, 0x00#8)) ∧
  ∀ (sid fc code : Byte) (more : List Byte) (l h esid efc : Byte),
    decodeResponse (sid :: fc :: code :: (more ++ [l, h])) esid efc =
      if crc16 (sid :: fc :: code :: more) ≠ h ++ l then (.checksumMismatch, 0x00#8)
      else if sid ≠ esid then (.unexpectedSlave, 0x00#8)
      else if fc = efc then (.ack, 0x00#8)
      else if fc = efc ||| 0x80#8 then (.slaveException, code)
      else (.malformedFrame, 0x00#8)

/-- R95: `DEC` on the bytes held: executed, it writes `STATUS`, `EXCODE` and, from five bytes on, `CRC`, and nothing else;
refused, it writes `STATUS` only; and a second `DEC` with the same operand gives the same result; its word. -/
def Obligations.DecClassifiesReceivedBytes : Prop :=
  ∀ (s : State) (efc : Byte),
    (∀ w, decodeCommand w = .ok (.dec efc) ↔ w = 0x0B#8 ++ 0x0000#16 ++ 0x00#8 ++ efc) ∧
    (s.idValid = true → s.rxOvf = false → ∀ bs : List Byte, bs.length = s.rxLen.val →
      (∀ a, a < bs.length → Memory.read s.rx a = bs[a]?) →
      exec (.dec efc) s = .next { s with
        crc := if 5 ≤ bs.length then crc16 (bs.take (bs.length - 2)) else s.crc,
        excode := (decodeResponse bs s.slaveId efc).2,
        status := (decodeResponse bs s.slaveId efc).1 }) ∧
    (s.idValid = false → exec (.dec efc) s = .next { s with status := .notConfigured }) ∧
    (s.idValid = true → s.rxOvf = true → exec (.dec efc) s = .next { s with status := .rxOverflow }) ∧
    ∀ t, exec (.dec efc) s = .next t → exec (.dec efc) t = .next t

/-- R58, third row: the operations compute `decodeResponse` on up to eight received bytes. -/
def Obligations.DecodeOperationsComputeDecodeResponse : Prop :=
  ∀ (s : State) (sid efc : Byte) (bs : List Byte), 1 ≤ sid.toNat → sid.toNat ≤ 247 → bs.length ≤ 8 →
    ∃ t, execAll (.setid (sid.setWidth 16) :: .rxclr :: (bs.map Instr.rxpush ++ [.dec efc])) s = .next t ∧
      (t.status, t.excode) = decodeResponse bs sid efc

/-- R96, R85: the decoder does not compare the response with the request: any register and value bytes give `Ack`, and
`DEC` gives the same outcome whatever the transmit side holds. -/
def Obligations.DecoderDoesNotCompareWithRequest : Prop :=
  (∀ sid rh rl vh vl l h : Byte, crc16 [sid, 0x06#8, rh, rl, vh, vl] = h ++ l →
    decodeResponse [sid, 0x06#8, rh, rl, vh, vl, l, h] sid 0x06#8 = (.ack, 0x00#8)) ∧
  ∀ (s t : State) (efc : Byte) (m : Memory) (v : Bool), exec (.dec efc) s = .next t →
    exec (.dec efc) { s with tx := m, txValid := v } = .next { t with tx := m, txValid := v }

/-- R73, R97 (a), G2: a frame the encoder built with any one of its eight bytes changed to any other value is a
`ChecksumMismatch`, whatever slave and function code are expected (more than the rule claims: single bits are a special case). -/
def Obligations.OneChangedByteIsChecksumMismatch : Prop :=
  ∀ (sid : Byte) (addr val : Half) (esid efc : Byte) (k : Nat) (b : Byte), k < 8 →
    (encodeWSR sid addr val)[k]? ≠ some b →
    decodeResponse ((encodeWSR sid addr val).set k b) esid efc = (.checksumMismatch, 0x00#8)

/-- R51, R97 (d): with bit 7 set in the expected function code the exception row can never be reached. -/
def Obligations.EfcWithBit7NeverGivesSlaveException : Prop :=
  ∀ (s : List Byte) (esid efc : Byte), efc.getLsbD 7 = true →
    (decodeResponse s esid efc).1 ≠ .slaveException

/-- R99, R107: the exception code is delivered verbatim, whatever it is. -/
def Obligations.ExceptionCodeIsVerbatim : Prop :=
  ∀ (s : State) (code l h : Byte), s.idValid = true → s.rxOvf = false → s.rxLen.val = 5 →
    Memory.read s.rx 0 = some s.slaveId → Memory.read s.rx 1 = some 0x86#8 →
    Memory.read s.rx 2 = some code → Memory.read s.rx 3 = some l → Memory.read s.rx 4 = some h →
    crc16 [s.slaveId, 0x86#8, code] = h ++ l →
    exec (.dec 0x06#8) s = .next { s with crc := h ++ l, excode := code, status := .slaveException }

/-! ## Frames from the link (30_encoding.md R45 to R47, 42_decoder.md R100) -/

/-- R46, R47, R100: a frame that arrives is received by the operations the rule lists: `RXCLR`, one `RXPUSH` per byte, `DEC
0x06` (that one step does all of it is the model's choice: log 3). -/
def Obligations.FrameIsReceivedByOperations : Prop :=
  (∀ (s : State) (sid : Byte) (addr val : Half) (cl ch : Byte),
    exec (.frameWsr sid addr val cl ch) s =
      execAll [.rxclr, .rxpush sid, .rxpush 0x06#8, .rxpush (addr.extractLsb' 8 8),
        .rxpush (addr.extractLsb' 0 8), .rxpush (val.extractLsb' 8 8), .rxpush (val.extractLsb' 0 8),
        .rxpush cl, .rxpush ch, .dec 0x06#8] s) ∧
  ∀ (s : State) (sid code cl ch : Byte),
    exec (.frameException sid code cl ch) s =
      execAll [.rxclr, .rxpush sid, .rxpush 0x86#8, .rxpush code, .rxpush cl, .rxpush ch, .dec 0x06#8] s

/-- R46, R100, R106: a received 8-byte frame fills the receive buffer and, configured, is judged; nothing else changes. That
one step stores and judges it is the model's choice (log 3). -/
def Obligations.WsrFrameIsStoredAndJudged : Prop :=
  ∀ (s : State) (sid : Byte) (addr val : Half) (cl ch : Byte),
    let p := [sid, 0x06#8, addr.extractLsb' 8 8, addr.extractLsb' 0 8, val.extractLsb' 8 8,
      val.extractLsb' 0 8]
    ∃ t, exec (.frameWsr sid addr val cl ch) s = .next t ∧
      (∀ a, a < 8 → Memory.read t.rx a = (p ++ [cl, ch])[a]?) ∧
      (∀ a, 8 ≤ a → Memory.read t.rx a = Memory.read s.rx a) ∧
      (s.idValid = true → t = { s with
        rx := t.rx, rxLen := 8, rxOvf := false, crc := crc16 p, excode := 0x00#8,
        status := if crc16 p ≠ ch ++ cl then .checksumMismatch
          else if sid ≠ s.slaveId then .unexpectedSlave else .ack }) ∧
      (s.idValid = false →
        t = { s with rx := t.rx, rxLen := 8, rxOvf := false, status := .notConfigured })

/-- R47, R100, R106: the same for a received 5-byte exception frame; that one step does it is the model's choice (log 3). -/
def Obligations.ExceptionFrameIsStoredAndJudged : Prop :=
  ∀ (s : State) (sid code cl ch : Byte),
    let p := [sid, 0x86#8, code]
    ∃ t, exec (.frameException sid code cl ch) s = .next t ∧
      (∀ a, a < 5 → Memory.read t.rx a = (p ++ [cl, ch])[a]?) ∧
      (∀ a, 5 ≤ a → Memory.read t.rx a = Memory.read s.rx a) ∧
      (s.idValid = true → t = { s with
        rx := t.rx, rxLen := 5, rxOvf := false, crc := crc16 p,
        excode := if crc16 p ≠ ch ++ cl then 0x00#8 else if sid ≠ s.slaveId then 0x00#8 else code,
        status := if crc16 p ≠ ch ++ cl then .checksumMismatch
          else if sid ≠ s.slaveId then .unexpectedSlave else .slaveException }) ∧
      (s.idValid = false →
        t = { s with rx := t.rx, rxLen := 5, rxOvf := false, status := .notConfigured })

/-- R100, R92, R95: how any byte sequence from the link is received, of either frame row or of neither. Fewer bytes than the
frame needs before the timeout: they are held and no `DEC` is issued. Otherwise exactly the needed bytes are held, five with
bit 7 of byte 1 set or eight, and `DEC 0x06` judges them. In both cases nothing else changes. That one step does it (log 3),
that the end of the bytes is the timeout and the bytes after the frame are dropped (log 10), the port (log 1) and the epoch,
one higher (log 5), are the model's choices. -/
def Obligations.AnyResponseIsReceived : Prop :=
  ∀ (s : State) (bytes : List Byte) (rest : List HostEvent),
    s.port = .present (.response bytes) :: rest →
    let held := bytes.take (need bytes)
    ∃ t, step s = .next t ∧ t.rxLen.val = held.length ∧ t.rxBytes = held ∧
      (∀ a, a < held.length → Memory.read t.rx a = held[a]?) ∧
      (∀ a, held.length ≤ a → Memory.read t.rx a = Memory.read s.rx a) ∧
      (bytes.length < need bytes → t = { s with
        port := rest, epoch := s.epoch + 1, rx := t.rx, rxLen := t.rxLen, rxOvf := false, status := .ok }) ∧
      (need bytes ≤ bytes.length →
        (held.length = 8 ∨ held.length = 5 ∧ (t.rxByte 1).getLsbD 7 = true) ∧
        (s.idValid = true → t = { s with
          port := rest, epoch := s.epoch + 1, rx := t.rx, rxLen := t.rxLen, rxOvf := false,
          crc := crc16 (held.take (held.length - 2)),
          excode := (decodeResponse held s.slaveId 0x06#8).2,
          status := (decodeResponse held s.slaveId 0x06#8).1 }) ∧
        (s.idValid = false → t = { s with
          port := rest, epoch := s.epoch + 1, rx := t.rx, rxLen := t.rxLen, rxOvf := false,
          status := .notConfigured }))

/-! ## The whole machine (10_state.md, 60_exceptions.md) -/

/-- R105, R20, R106, R109: an operation leaves in `STATUS` one of the codes the spec lists for it. The spec lists none for a
wire frame: the codes for the two frames are the model's, from its composite of `RXCLR`, `RXPUSH` and `DEC` (log 3). -/
def Obligations.OperationsLeaveListedOutcomes : Prop :=
  ∀ (i : Instr) (s t : State), exec i s = .next t → t.status ∈ i.outcomes

/-- R24, R12: `CRC` is written by `CRCINIT`, `CRCBYTE`, an accepted encode operation, an executed `DEC` on five bytes or
more, and a frame's reception (the model's composite of `RXCLR`, `RXPUSH`, `DEC`, log 3); by nothing else, and not by a
refused operation. -/
def Obligations.OnlyListedOperationsWriteCrc : Prop :=
  ∀ (i : Instr) (s t : State), exec i s = .next t →
    (i.isCrc = false → i.isEncode = false → i.isDec = false → i.isFrame = false → t.crc = s.crc) ∧
    (i.isEncode = true → s.idValid = false → t.crc = s.crc) ∧
    (i.isDec = true → (s.idValid = false ∨ s.rxOvf = true ∨ s.rxLen.val < 5) → t.crc = s.crc)

/-- R24, R13, R14: `SLAVEID` and `IDVALID` are written by an accepted `SETID` only (of the instructions, the two frames of
log 3 included). -/
def Obligations.OnlyAcceptedSetidWritesSlaveId : Prop :=
  ∀ (i : Instr) (s t : State), exec i s = .next t →
    (i.isSetid = false ∨ t.status = .idRejected) → t.slaveId = s.slaveId ∧ t.idValid = s.idValid

/-- R24, R15, R16, R129: `TXBUF` and `TXVALID` are written by an accepted encode operation only, so a frame stays until the
next one, whatever `SETID` does. The two frames of log 3 are included. -/
def Obligations.OnlyAcceptedEncodeWritesTransmitSide : Prop :=
  ∀ (i : Instr) (s t : State), exec i s = .next t →
    (i.isEncode = false ∨ s.idValid = false) → t.tx = s.tx ∧ t.txValid = s.txValid

/-- R24, R17: `RXBUF` is written by an accepted `RXPUSH` (and a frame's reception, log 3) only, `RXLEN` by it and `RXCLR`;
a refused `RXPUSH` writes neither. -/
def Obligations.OnlyListedOperationsWriteReceiveSide : Prop :=
  ∀ (i : Instr) (s t : State), exec i s = .next t →
    (((i.isPush = false ∧ i.isFrame = false) ∨ (i.isPush = true ∧ s.rxLen = 8)) → t.rx = s.rx) ∧
    (((i.isPush = false ∧ i.isFrame = false ∧ i ≠ .rxclr) ∨ (i.isPush = true ∧ s.rxLen = 8)) →
      t.rxLen = s.rxLen)

/-- R24, R19: `EXCODE` is written by an executed `DEC` (and a frame's reception, log 3) only. -/
def Obligations.OnlyExecutedDecWritesExcode : Prop :=
  ∀ (i : Instr) (s t : State), exec i s = .next t →
    (i.isDec = false ∧ i.isFrame = false ∨ i.isDec = true ∧ (s.idValid = false ∨ s.rxOvf = true)) →
    t.excode = s.excode

/-- R39: no operation touches what the host will do next, what it has read, or the model's epoch (the model's own fields,
logs 1, 5, 6). -/
def Obligations.OperationsLeaveHostSideAlone : Prop :=
  ∀ (i : Instr) (s t : State), exec i s = .next t →
    t.port = s.port ∧ t.reply = s.reply ∧ t.epoch = s.epoch

/-- R18: `RXOVF` is set by a push on a full buffer and by nothing else, and cleared by `RXCLR` and by no other operation. A
frame's reception begins with `RXCLR` and clears it too (the model's composite step, log 3). -/
def Obligations.OverflowMarkLifetime : Prop :=
  ∀ (i : Instr) (s t : State), exec i s = .next t →
    (s.rxOvf = false → (t.rxOvf = true ↔ i.isPush = true ∧ s.rxLen = 8)) ∧
    (s.rxOvf = true → (t.rxOvf = false ↔ i = .rxclr ∨ i.isFrame = true))

/-- R14, R16: over every step, `IDVALID` and `TXVALID` are cleared by the reset event only. What a step is (one event of the
port, or one whole response) is the model's choice (logs 1 and 3). -/
def Obligations.ConfiguredAndBuiltUntilReset : Prop :=
  ∀ s t : State, step s = .next t →
    (s.idValid = true → t.idValid = false → ∃ rest, s.port = .reset :: rest) ∧
    (s.txValid = true → t.txValid = false → ∃ rest, s.port = .reset :: rest)

/-- The invariant holds after reset. That the buffers list nothing then is the model's choice (log 4). -/
def Obligations.ResetSatisfiesInv : Prop :=
  State.reset.Inv

/-- R13, R16, R17, R18, R59: every step keeps the invariant: a configured id is 1 to 247, a valid transmit buffer holds a
whole frame built for such an id, every byte below `RXLEN` was received, an overflow is on a full buffer. That both buffers
are canonical lists, and that `TXBUF` lists nothing while `TXVALID` is 0, is the model's form of them (logs 4 and 9). -/
def Obligations.EveryStepKeepsInv : Prop :=
  ∀ s t : State, s.Inv → step s = .next t → t.Inv

/-- R30: every step keeps both buffers in canonical form, with no address above 7. -/
def Obligations.EveryStepKeepsMemoryCanonical : Prop :=
  ∀ s t : State, s.memoryCanonical → step s = .next t → t.memoryCanonical
end

