-- ==== Sys2Proof/Laws/Codec.lean ====
section
/-! SUPPORT. The laws of bytes and 16-bit values, and of the CRC step. -/

namespace Sys2Proof.Machine

theorem lo_join (h l : Byte) : lo (join h l) = l := by
  ext i hi
  simp only [lo, join, BitVec.getElem_extractLsb', BitVec.getLsbD_append]
  simp [hi, BitVec.getLsbD_eq_getElem]

theorem hi_join (h l : Byte) : hi (join h l) = h := by
  ext i h'
  simp only [hi, join, BitVec.getElem_extractLsb', BitVec.getLsbD_append]
  simp [BitVec.getLsbD_eq_getElem, h']

theorem join_hi_lo (v : Half) : join (hi v) (lo v) = v := by
  apply BitVec.eq_of_getLsbD_eq
  intro i h'
  simp only [join, hi, lo, BitVec.getLsbD_append, BitVec.getLsbD_extractLsb']
  by_cases h : i < 8
  · simp [h]
  · simp [h, show i - 8 < 8 by omega, show 8 + (i - 8) = i by omega]

/-- The low byte of a zero-extended byte is the byte. -/
theorem lo_setWidth (b : Byte) : lo (b.setWidth 16) = b := by
  ext i h'
  simp [lo, BitVec.getLsbD_eq_getElem, h', show i < 16 by omega]

@[simp] theorem crcFrom_nil (acc : Half) : crcFrom acc [] = acc := rfl

@[simp] theorem crcFrom_cons (acc : Half) (b : Byte) (bs : List Byte) :
    crcFrom acc (b :: bs) = crcFrom (crcByte acc b) bs := rfl

/-- The accumulator over a concatenation is carried from the first part into the second. -/
theorem crcFrom_append (p q : List Byte) :
    ∀ acc, crcFrom acc (p ++ q) = crcFrom (crcFrom acc p) q := by
  induction p with
  | nil => intro acc; rfl
  | cons b p ih => intro acc; exact ih _

@[simp] theorem crcShifts_zero (acc : Half) : crcShifts 0 acc = acc := rfl

@[simp] theorem crcShifts_succ (n : Nat) (acc : Half) :
    crcShifts (n + 1) acc = crcShifts n (crcShift acc) := rfl

/-- One CRC iteration is linear over XOR. -/
theorem crcShift_xor (a b : Half) : crcShift (a ^^^ b) = crcShift a ^^^ crcShift b := by
  unfold crcShift
  simp only [BitVec.getLsbD_xor, BitVec.ushiftRight_xor_distrib]
  cases a.getLsbD 0 <;> cases b.getLsbD 0 <;> simp <;> ext i <;> simp <;> grind

/-- Any number of CRC iterations is linear over XOR. -/
theorem crcShifts_xor (n : Nat) :
    ∀ a b : Half, crcShifts n (a ^^^ b) = crcShifts n a ^^^ crcShifts n b := by
  induction n with
  | zero => intros; rfl
  | succ n ih => intro a b; simp [crcShift_xor, ih]

/-- One CRC iteration takes only 0 to 0: bit 15 of the result tells whether the feedback was applied. -/
theorem crcShift_eq_zero {a : Half} (h : crcShift a = 0#16) : a = 0#16 := by
  unfold crcShift at h
  split_ifs at h with h0
  · have := congrArg (fun v : Half => v.getLsbD 15) h
    simp [Config.poly] at this
  · ext i hi
    cases i with
    | zero => simpa [BitVec.getLsbD_eq_getElem] using h0
    | succ i =>
      have := congrArg (fun v : Half => v.getLsbD i) h
      simp only [BitVec.getLsbD_ushiftRight] at this
      simpa [Nat.add_comm 1 i, BitVec.getLsbD_eq_getElem, hi] using this

@[simp] theorem withCrc_length (p : List Byte) : (withCrc p).length = p.length + 2 := by
  simp [withCrc]

@[simp] theorem encodeWSR_length (sid : Byte) (addr val : Half) : (encodeWSR sid addr val).length = 8 := by
  simp [encodeWSR, wsrPayload]

/-- The payload of a payload with two bytes after it. -/
@[simp] theorem payload_append (p : List Byte) (l h : Byte) : payload (p ++ [l, h]) = p := by
  simp [payload]

/-- The trailing CRC of a payload with two bytes after it, low byte first. -/
@[simp] theorem trailingCrc_append (p : List Byte) (l h : Byte) :
    trailingCrc (p ++ [l, h]) = join h l := by
  simp [trailingCrc, List.getD_eq_getElem?_getD]

end Sys2Proof.Machine
end

