-- ==== Sys2Proof/Laws/Decode.lean ====
section
/-! SUPPORT. The fields of a command word: reading them back, and putting them together again. -/

namespace Sys2Proof.Machine

theorem fieldOp_commandWord (op : Byte) (a b : Half) : fieldOp (commandWord op a b) = op := by
  apply BitVec.eq_of_getLsbD_eq
  intro i h
  simp only [fieldOp, commandWord, BitVec.getLsbD_append, BitVec.getLsbD_extractLsb']
  simp [h, show ¬ (32 + i < 16) by omega, show ¬ (32 + i - 16 < 16) by omega,
    show 32 + i - 16 - 16 = i by omega]

theorem fieldA_commandWord (op : Byte) (a b : Half) : fieldA (commandWord op a b) = a := by
  apply BitVec.eq_of_getLsbD_eq
  intro i h
  simp only [fieldA, commandWord, BitVec.getLsbD_append, BitVec.getLsbD_extractLsb']
  simp [h, show ¬ (16 + i < 16) by omega]

theorem fieldB_commandWord (op : Byte) (a b : Half) : fieldB (commandWord op a b) = b := by
  apply BitVec.eq_of_getLsbD_eq
  intro i h
  simp only [fieldB, commandWord, BitVec.getLsbD_append, BitVec.getLsbD_extractLsb']
  simp [h]

/-- A command word is its three fields. -/
theorem commandWord_fields (cw : CommandWord) :
    commandWord (fieldOp cw) (fieldA cw) (fieldB cw) = cw := by
  apply BitVec.eq_of_getLsbD_eq
  intro i h
  simp only [fieldOp, fieldA, fieldB, commandWord, BitVec.getLsbD_append, BitVec.getLsbD_extractLsb']
  by_cases h1 : i < 16
  · simp [h1]
  · by_cases h2 : i < 32
    · simp [h1, show i - 16 < 16 by omega, show 16 + (i - 16) = i by omega]
    · simp [h1, show ¬ (i - 16 < 16) by omega, show i - 16 - 16 < 8 by omega,
        show 32 + (i - 16 - 16) = i by omega]

end Sys2Proof.Machine

namespace Sys2Proof

open Machine

/-- Everything the operand form without operands accepts. -/
theorem noOperand_ok {a b : Half} {i j : Instr} (h : noOperand a b i = .ok j) :
    a = 0#16 ∧ b = 0#16 ∧ j = i := by
  unfold noOperand at h
  split_ifs at h with hc
  cases h
  exact ⟨hc.1, hc.2, rfl⟩

/-- Everything the byte operand form accepts. -/
theorem byteOperand_ok {a b : Half} {i : Byte → Instr} {j : Instr} (h : byteOperand a b i = .ok j) :
    ∃ v, a = 0#16 ∧ b = join 0#8 v ∧ j = i v := by
  unfold byteOperand at h
  split_ifs at h with hc
  cases h
  exact ⟨lo b, hc.1, by rw [← hc.2, join_hi_lo], rfl⟩

/-- Everything the 16-bit operand form accepts. -/
theorem halfOperand_ok {a b : Half} {i : Half → Instr} {j : Instr} (h : halfOperand a b i = .ok j) :
    a = 0#16 ∧ j = i b := by
  unfold halfOperand at h
  split_ifs at h with hc
  cases h
  exact ⟨hc, rfl⟩

end Sys2Proof
end

