-- ==== Sys2Proof/Laws/State.lean ====
section
/-! SUPPORT. What each update of the state does to each field, true by unfolding, so that no later proof unfolds a record update. -/

namespace Sys2Proof.Machine

variable (s : State)

@[simp] theorem State.setStatus_crc (st : Status) : (s.setStatus st).crc = s.crc := rfl
@[simp] theorem State.setStatus_slaveId (st : Status) : (s.setStatus st).slaveId = s.slaveId := rfl
@[simp] theorem State.setStatus_idValid (st : Status) : (s.setStatus st).idValid = s.idValid := rfl
@[simp] theorem State.setStatus_tx (st : Status) : (s.setStatus st).tx = s.tx := rfl
@[simp] theorem State.setStatus_txValid (st : Status) : (s.setStatus st).txValid = s.txValid := rfl
@[simp] theorem State.setStatus_rx (st : Status) : (s.setStatus st).rx = s.rx := rfl
@[simp] theorem State.setStatus_rxLen (st : Status) : (s.setStatus st).rxLen = s.rxLen := rfl
@[simp] theorem State.setStatus_rxOvf (st : Status) : (s.setStatus st).rxOvf = s.rxOvf := rfl
@[simp] theorem State.setStatus_status (st : Status) : (s.setStatus st).status = st := rfl
@[simp] theorem State.setStatus_excode (st : Status) : (s.setStatus st).excode = s.excode := rfl
@[simp] theorem State.setStatus_port (st : Status) : (s.setStatus st).port = s.port := rfl
@[simp] theorem State.setStatus_reply (st : Status) : (s.setStatus st).reply = s.reply := rfl
@[simp] theorem State.setStatus_epoch (st : Status) : (s.setStatus st).epoch = s.epoch := rfl

@[simp] theorem State.setCrc_crc (c : Half) : (s.setCrc c).crc = c := rfl
@[simp] theorem State.setCrc_slaveId (c : Half) : (s.setCrc c).slaveId = s.slaveId := rfl
@[simp] theorem State.setCrc_idValid (c : Half) : (s.setCrc c).idValid = s.idValid := rfl
@[simp] theorem State.setCrc_tx (c : Half) : (s.setCrc c).tx = s.tx := rfl
@[simp] theorem State.setCrc_txValid (c : Half) : (s.setCrc c).txValid = s.txValid := rfl
@[simp] theorem State.setCrc_rx (c : Half) : (s.setCrc c).rx = s.rx := rfl
@[simp] theorem State.setCrc_rxLen (c : Half) : (s.setCrc c).rxLen = s.rxLen := rfl
@[simp] theorem State.setCrc_rxOvf (c : Half) : (s.setCrc c).rxOvf = s.rxOvf := rfl
@[simp] theorem State.setCrc_status (c : Half) : (s.setCrc c).status = s.status := rfl
@[simp] theorem State.setCrc_excode (c : Half) : (s.setCrc c).excode = s.excode := rfl
@[simp] theorem State.setCrc_port (c : Half) : (s.setCrc c).port = s.port := rfl
@[simp] theorem State.setCrc_reply (c : Half) : (s.setCrc c).reply = s.reply := rfl
@[simp] theorem State.setCrc_epoch (c : Half) : (s.setCrc c).epoch = s.epoch := rfl

@[simp] theorem State.setSlave_crc (id : Byte) : (s.setSlave id).crc = s.crc := rfl
@[simp] theorem State.setSlave_slaveId (id : Byte) : (s.setSlave id).slaveId = id := rfl
@[simp] theorem State.setSlave_idValid (id : Byte) : (s.setSlave id).idValid = true := rfl
@[simp] theorem State.setSlave_tx (id : Byte) : (s.setSlave id).tx = s.tx := rfl
@[simp] theorem State.setSlave_txValid (id : Byte) : (s.setSlave id).txValid = s.txValid := rfl
@[simp] theorem State.setSlave_rx (id : Byte) : (s.setSlave id).rx = s.rx := rfl
@[simp] theorem State.setSlave_rxLen (id : Byte) : (s.setSlave id).rxLen = s.rxLen := rfl
@[simp] theorem State.setSlave_rxOvf (id : Byte) : (s.setSlave id).rxOvf = s.rxOvf := rfl
@[simp] theorem State.setSlave_status (id : Byte) : (s.setSlave id).status = s.status := rfl
@[simp] theorem State.setSlave_excode (id : Byte) : (s.setSlave id).excode = s.excode := rfl
@[simp] theorem State.setSlave_port (id : Byte) : (s.setSlave id).port = s.port := rfl
@[simp] theorem State.setSlave_reply (id : Byte) : (s.setSlave id).reply = s.reply := rfl
@[simp] theorem State.setSlave_epoch (id : Byte) : (s.setSlave id).epoch = s.epoch := rfl

@[simp] theorem State.setTx_crc (m : Memory) : (s.setTx m).crc = s.crc := rfl
@[simp] theorem State.setTx_slaveId (m : Memory) : (s.setTx m).slaveId = s.slaveId := rfl
@[simp] theorem State.setTx_idValid (m : Memory) : (s.setTx m).idValid = s.idValid := rfl
@[simp] theorem State.setTx_tx (m : Memory) : (s.setTx m).tx = m := rfl
@[simp] theorem State.setTx_txValid (m : Memory) : (s.setTx m).txValid = true := rfl
@[simp] theorem State.setTx_rx (m : Memory) : (s.setTx m).rx = s.rx := rfl
@[simp] theorem State.setTx_rxLen (m : Memory) : (s.setTx m).rxLen = s.rxLen := rfl
@[simp] theorem State.setTx_rxOvf (m : Memory) : (s.setTx m).rxOvf = s.rxOvf := rfl
@[simp] theorem State.setTx_status (m : Memory) : (s.setTx m).status = s.status := rfl
@[simp] theorem State.setTx_excode (m : Memory) : (s.setTx m).excode = s.excode := rfl
@[simp] theorem State.setTx_port (m : Memory) : (s.setTx m).port = s.port := rfl
@[simp] theorem State.setTx_reply (m : Memory) : (s.setTx m).reply = s.reply := rfl
@[simp] theorem State.setTx_epoch (m : Memory) : (s.setTx m).epoch = s.epoch := rfl

@[simp] theorem State.setRx_crc (m : Memory) (n : Fin 9) : (s.setRx m n).crc = s.crc := rfl
@[simp] theorem State.setRx_slaveId (m : Memory) (n : Fin 9) : (s.setRx m n).slaveId = s.slaveId := rfl
@[simp] theorem State.setRx_idValid (m : Memory) (n : Fin 9) : (s.setRx m n).idValid = s.idValid := rfl
@[simp] theorem State.setRx_tx (m : Memory) (n : Fin 9) : (s.setRx m n).tx = s.tx := rfl
@[simp] theorem State.setRx_txValid (m : Memory) (n : Fin 9) : (s.setRx m n).txValid = s.txValid := rfl
@[simp] theorem State.setRx_rx (m : Memory) (n : Fin 9) : (s.setRx m n).rx = m := rfl
@[simp] theorem State.setRx_rxLen (m : Memory) (n : Fin 9) : (s.setRx m n).rxLen = n := rfl
@[simp] theorem State.setRx_rxOvf (m : Memory) (n : Fin 9) : (s.setRx m n).rxOvf = s.rxOvf := rfl
@[simp] theorem State.setRx_status (m : Memory) (n : Fin 9) : (s.setRx m n).status = s.status := rfl
@[simp] theorem State.setRx_excode (m : Memory) (n : Fin 9) : (s.setRx m n).excode = s.excode := rfl
@[simp] theorem State.setRx_port (m : Memory) (n : Fin 9) : (s.setRx m n).port = s.port := rfl
@[simp] theorem State.setRx_reply (m : Memory) (n : Fin 9) : (s.setRx m n).reply = s.reply := rfl
@[simp] theorem State.setRx_epoch (m : Memory) (n : Fin 9) : (s.setRx m n).epoch = s.epoch := rfl

@[simp] theorem State.clearRx_crc : (s.clearRx).crc = s.crc := rfl
@[simp] theorem State.clearRx_slaveId : (s.clearRx).slaveId = s.slaveId := rfl
@[simp] theorem State.clearRx_idValid : (s.clearRx).idValid = s.idValid := rfl
@[simp] theorem State.clearRx_tx : (s.clearRx).tx = s.tx := rfl
@[simp] theorem State.clearRx_txValid : (s.clearRx).txValid = s.txValid := rfl
@[simp] theorem State.clearRx_rx : (s.clearRx).rx = s.rx := rfl
@[simp] theorem State.clearRx_rxLen : (s.clearRx).rxLen = 0 := rfl
@[simp] theorem State.clearRx_rxOvf : (s.clearRx).rxOvf = false := rfl
@[simp] theorem State.clearRx_status : (s.clearRx).status = s.status := rfl
@[simp] theorem State.clearRx_excode : (s.clearRx).excode = s.excode := rfl
@[simp] theorem State.clearRx_port : (s.clearRx).port = s.port := rfl
@[simp] theorem State.clearRx_reply : (s.clearRx).reply = s.reply := rfl
@[simp] theorem State.clearRx_epoch : (s.clearRx).epoch = s.epoch := rfl

@[simp] theorem State.markOvf_crc : (s.markOvf).crc = s.crc := rfl
@[simp] theorem State.markOvf_slaveId : (s.markOvf).slaveId = s.slaveId := rfl
@[simp] theorem State.markOvf_idValid : (s.markOvf).idValid = s.idValid := rfl
@[simp] theorem State.markOvf_tx : (s.markOvf).tx = s.tx := rfl
@[simp] theorem State.markOvf_txValid : (s.markOvf).txValid = s.txValid := rfl
@[simp] theorem State.markOvf_rx : (s.markOvf).rx = s.rx := rfl
@[simp] theorem State.markOvf_rxLen : (s.markOvf).rxLen = s.rxLen := rfl
@[simp] theorem State.markOvf_rxOvf : (s.markOvf).rxOvf = true := rfl
@[simp] theorem State.markOvf_status : (s.markOvf).status = s.status := rfl
@[simp] theorem State.markOvf_excode : (s.markOvf).excode = s.excode := rfl
@[simp] theorem State.markOvf_port : (s.markOvf).port = s.port := rfl
@[simp] theorem State.markOvf_reply : (s.markOvf).reply = s.reply := rfl
@[simp] theorem State.markOvf_epoch : (s.markOvf).epoch = s.epoch := rfl

@[simp] theorem State.setExcode_crc (c : Byte) : (s.setExcode c).crc = s.crc := rfl
@[simp] theorem State.setExcode_slaveId (c : Byte) : (s.setExcode c).slaveId = s.slaveId := rfl
@[simp] theorem State.setExcode_idValid (c : Byte) : (s.setExcode c).idValid = s.idValid := rfl
@[simp] theorem State.setExcode_tx (c : Byte) : (s.setExcode c).tx = s.tx := rfl
@[simp] theorem State.setExcode_txValid (c : Byte) : (s.setExcode c).txValid = s.txValid := rfl
@[simp] theorem State.setExcode_rx (c : Byte) : (s.setExcode c).rx = s.rx := rfl
@[simp] theorem State.setExcode_rxLen (c : Byte) : (s.setExcode c).rxLen = s.rxLen := rfl
@[simp] theorem State.setExcode_rxOvf (c : Byte) : (s.setExcode c).rxOvf = s.rxOvf := rfl
@[simp] theorem State.setExcode_status (c : Byte) : (s.setExcode c).status = s.status := rfl
@[simp] theorem State.setExcode_excode (c : Byte) : (s.setExcode c).excode = c := rfl
@[simp] theorem State.setExcode_port (c : Byte) : (s.setExcode c).port = s.port := rfl
@[simp] theorem State.setExcode_reply (c : Byte) : (s.setExcode c).reply = s.reply := rfl
@[simp] theorem State.setExcode_epoch (c : Byte) : (s.setExcode c).epoch = s.epoch := rfl

@[simp] theorem State.take_crc (rest : List HostEvent) : (s.take rest).crc = s.crc := rfl
@[simp] theorem State.take_slaveId (rest : List HostEvent) : (s.take rest).slaveId = s.slaveId := rfl
@[simp] theorem State.take_idValid (rest : List HostEvent) : (s.take rest).idValid = s.idValid := rfl
@[simp] theorem State.take_tx (rest : List HostEvent) : (s.take rest).tx = s.tx := rfl
@[simp] theorem State.take_txValid (rest : List HostEvent) : (s.take rest).txValid = s.txValid := rfl
@[simp] theorem State.take_rx (rest : List HostEvent) : (s.take rest).rx = s.rx := rfl
@[simp] theorem State.take_rxLen (rest : List HostEvent) : (s.take rest).rxLen = s.rxLen := rfl
@[simp] theorem State.take_rxOvf (rest : List HostEvent) : (s.take rest).rxOvf = s.rxOvf := rfl
@[simp] theorem State.take_status (rest : List HostEvent) : (s.take rest).status = s.status := rfl
@[simp] theorem State.take_excode (rest : List HostEvent) : (s.take rest).excode = s.excode := rfl
@[simp] theorem State.take_port (rest : List HostEvent) : (s.take rest).port = rest := rfl
@[simp] theorem State.take_reply (rest : List HostEvent) : (s.take rest).reply = s.reply := rfl
@[simp] theorem State.take_epoch (rest : List HostEvent) : (s.take rest).epoch = s.epoch + 1 := rfl

@[simp] theorem State.answer_crc (rest : List HostEvent) (v : Half) : (s.answer rest v).crc = s.crc := rfl
@[simp] theorem State.answer_slaveId (rest : List HostEvent) (v : Half) : (s.answer rest v).slaveId = s.slaveId := rfl
@[simp] theorem State.answer_idValid (rest : List HostEvent) (v : Half) : (s.answer rest v).idValid = s.idValid := rfl
@[simp] theorem State.answer_tx (rest : List HostEvent) (v : Half) : (s.answer rest v).tx = s.tx := rfl
@[simp] theorem State.answer_txValid (rest : List HostEvent) (v : Half) : (s.answer rest v).txValid = s.txValid := rfl
@[simp] theorem State.answer_rx (rest : List HostEvent) (v : Half) : (s.answer rest v).rx = s.rx := rfl
@[simp] theorem State.answer_rxLen (rest : List HostEvent) (v : Half) : (s.answer rest v).rxLen = s.rxLen := rfl
@[simp] theorem State.answer_rxOvf (rest : List HostEvent) (v : Half) : (s.answer rest v).rxOvf = s.rxOvf := rfl
@[simp] theorem State.answer_status (rest : List HostEvent) (v : Half) : (s.answer rest v).status = s.status := rfl
@[simp] theorem State.answer_excode (rest : List HostEvent) (v : Half) : (s.answer rest v).excode = s.excode := rfl
@[simp] theorem State.answer_port (rest : List HostEvent) (v : Half) : (s.answer rest v).port = rest := rfl
@[simp] theorem State.answer_reply (rest : List HostEvent) (v : Half) : (s.answer rest v).reply = some v := rfl
@[simp] theorem State.answer_epoch (rest : List HostEvent) (v : Half) : (s.answer rest v).epoch = s.epoch := rfl

@[simp] theorem State.refuse_crc (st : Status) : (s.refuse st).crc = s.crc := rfl
@[simp] theorem State.refuse_slaveId (st : Status) : (s.refuse st).slaveId = s.slaveId := rfl
@[simp] theorem State.refuse_idValid (st : Status) : (s.refuse st).idValid = s.idValid := rfl
@[simp] theorem State.refuse_tx (st : Status) : (s.refuse st).tx = s.tx := rfl
@[simp] theorem State.refuse_txValid (st : Status) : (s.refuse st).txValid = s.txValid := rfl
@[simp] theorem State.refuse_rx (st : Status) : (s.refuse st).rx = s.rx := rfl
@[simp] theorem State.refuse_rxLen (st : Status) : (s.refuse st).rxLen = s.rxLen := rfl
@[simp] theorem State.refuse_rxOvf (st : Status) : (s.refuse st).rxOvf = s.rxOvf := rfl
@[simp] theorem State.refuse_status (st : Status) : (s.refuse st).status = st := rfl
@[simp] theorem State.refuse_excode (st : Status) : (s.refuse st).excode = s.excode := rfl
@[simp] theorem State.refuse_port (st : Status) : (s.refuse st).port = s.port := rfl
@[simp] theorem State.refuse_reply (st : Status) : (s.refuse st).reply = s.reply := rfl
@[simp] theorem State.refuse_epoch (st : Status) : (s.refuse st).epoch = s.epoch := rfl

@[simp] theorem State.resetBlock_crc (rest : List HostEvent) : (s.resetBlock rest).crc = State.reset.crc := rfl
@[simp] theorem State.resetBlock_slaveId (rest : List HostEvent) : (s.resetBlock rest).slaveId = State.reset.slaveId := rfl
@[simp] theorem State.resetBlock_idValid (rest : List HostEvent) : (s.resetBlock rest).idValid = State.reset.idValid := rfl
@[simp] theorem State.resetBlock_tx (rest : List HostEvent) : (s.resetBlock rest).tx = State.reset.tx := rfl
@[simp] theorem State.resetBlock_txValid (rest : List HostEvent) : (s.resetBlock rest).txValid = State.reset.txValid := rfl
@[simp] theorem State.resetBlock_rx (rest : List HostEvent) : (s.resetBlock rest).rx = State.reset.rx := rfl
@[simp] theorem State.resetBlock_rxLen (rest : List HostEvent) : (s.resetBlock rest).rxLen = State.reset.rxLen := rfl
@[simp] theorem State.resetBlock_rxOvf (rest : List HostEvent) : (s.resetBlock rest).rxOvf = State.reset.rxOvf := rfl
@[simp] theorem State.resetBlock_status (rest : List HostEvent) : (s.resetBlock rest).status = State.reset.status := rfl
@[simp] theorem State.resetBlock_excode (rest : List HostEvent) : (s.resetBlock rest).excode = State.reset.excode := rfl
@[simp] theorem State.resetBlock_port (rest : List HostEvent) : (s.resetBlock rest).port = rest := rfl
@[simp] theorem State.resetBlock_reply (rest : List HostEvent) : (s.resetBlock rest).reply = s.reply := rfl
@[simp] theorem State.resetBlock_epoch (rest : List HostEvent) : (s.resetBlock rest).epoch = s.epoch + 1 := rfl

@[simp] theorem State.reset_crc : State.reset.crc = 0xFFFF#16 := rfl
@[simp] theorem State.reset_slaveId : State.reset.slaveId = 0x00#8 := rfl
@[simp] theorem State.reset_idValid : State.reset.idValid = false := rfl
@[simp] theorem State.reset_tx : State.reset.tx = [] := rfl
@[simp] theorem State.reset_txValid : State.reset.txValid = false := rfl
@[simp] theorem State.reset_rx : State.reset.rx = [] := rfl
@[simp] theorem State.reset_rxLen : State.reset.rxLen = 0 := rfl
@[simp] theorem State.reset_rxOvf : State.reset.rxOvf = false := rfl
@[simp] theorem State.reset_status : State.reset.status = .idle := rfl
@[simp] theorem State.reset_excode : State.reset.excode = 0x00#8 := rfl
@[simp] theorem State.reset_port : State.reset.port = [] := rfl
@[simp] theorem State.reset_reply : State.reset.reply = none := rfl
@[simp] theorem State.reset_epoch : State.reset.epoch = 0 := rfl

end Sys2Proof.Machine
end

