-- ==== Sys2Proof/Laws/Memory.lean ====
section
/-! SUPPORT. The laws of the two buffers: reading after writing, and that every memory operation keeps the canonical form. -/

namespace Sys2Proof.Machine

@[simp] theorem Memory.read_nil (a : Nat) : Memory.read [] a = none := rfl

/-- A read at the address written gives the byte written. -/
@[simp] theorem Memory.read_write_same (m : Memory) (a : Nat) (v : Byte) :
    Memory.read (Memory.write m a v) a = some v := by
  induction m with
  | nil => simp [Memory.write, Memory.read]
  | cons c m ih =>
    obtain ⟨k, w⟩ := c
    simp only [Memory.write]
    split_ifs with h1 h2
    · simp [Memory.read]
    · simp [Memory.read]
    · simp [Memory.read, h2, ih]

/-- A write leaves every other address as it was. -/
theorem Memory.read_write_other (m : Memory) {a a' : Nat} (v : Byte) (h : a' ≠ a) :
    Memory.read (Memory.write m a v) a' = Memory.read m a' := by
  induction m with
  | nil => simp [Memory.write, Memory.read, h]
  | cons c m ih =>
    obtain ⟨k, w⟩ := c
    simp only [Memory.write]
    split_ifs with h1 h2
    · simp [Memory.read, h]
    · subst h2; simp [Memory.read, h]
    · simp only [Memory.read, ih]

/-- Consecutive bytes read back at their addresses. -/
theorem Memory.read_writeFrom_inside (vs : List Byte) :
    ∀ (m : Memory) (a k : Nat), k < vs.length →
      Memory.read (Memory.writeFrom m a vs) (a + k) = vs[k]? := by
  have before : ∀ (vs : List Byte) (m : Memory) (a a' : Nat), a' < a →
      Memory.read (Memory.writeFrom m a vs) a' = Memory.read m a' := by
    intro vs
    induction vs with
    | nil => intros; rfl
    | cons v vs ih =>
      intro m a a' h
      rw [Memory.writeFrom, ih _ _ _ (by omega), Memory.read_write_other _ _ (by omega)]
  induction vs with
  | nil => intro m a k h; simp at h
  | cons v vs ih =>
    intro m a k h
    cases k with
    | zero => simp [Memory.writeFrom, before]
    | succ k =>
      have := ih (Memory.write m a v) (a + 1) k (by simpa using h)
      simpa [Memory.writeFrom, Nat.add_assoc, Nat.add_comm 1 k] using this

/-- Consecutive writes leave every address outside them as it was. -/
theorem Memory.read_writeFrom_outside (vs : List Byte) :
    ∀ (m : Memory) (a a' : Nat), (a' < a ∨ a + vs.length ≤ a') →
      Memory.read (Memory.writeFrom m a vs) a' = Memory.read m a' := by
  induction vs with
  | nil => intros; rfl
  | cons v vs ih =>
    intro m a a' h
    simp only [List.length_cons] at h
    rw [Memory.writeFrom, ih _ _ _ (by omega), Memory.read_write_other _ _ (by omega)]

theorem Memory.risesFrom_mono {m : Memory} {l l' : Nat} (h : l ≤ l') :
    Memory.risesFrom l' m = true → Memory.risesFrom l m = true := by
  cases m with
  | nil => simp [Memory.risesFrom]
  | cons c m =>
    obtain ⟨k, w⟩ := c
    simp only [Memory.risesFrom, Bool.and_eq_true, decide_eq_true_eq]
    rintro ⟨⟨h1, h2⟩, h3⟩
    exact ⟨⟨h.trans h1, h2⟩, h3⟩

/-- A write at an existing address keeps the addresses rising. -/
theorem Memory.risesFrom_write (a : Nat) (v : Byte) (ha : a < Config.bufCap) :
    ∀ (m : Memory) (l : Nat), l ≤ a → Memory.risesFrom l m = true →
      Memory.risesFrom l (Memory.write m a v) = true := by
  intro m
  induction m with
  | nil => intro l hl _; simp [Memory.write, Memory.risesFrom, hl, ha]
  | cons c m ih =>
    obtain ⟨k, w⟩ := c
    intro l hl hm
    simp only [Memory.risesFrom, Bool.and_eq_true, decide_eq_true_eq] at hm
    obtain ⟨⟨h1, h2⟩, h3⟩ := hm
    simp only [Memory.write]
    split_ifs with c1 c2
    · simp only [Memory.risesFrom, Bool.and_eq_true, decide_eq_true_eq]
      exact ⟨⟨hl, ha⟩, ⟨⟨c1, h2⟩, h3⟩⟩
    · subst c2
      simp only [Memory.risesFrom, Bool.and_eq_true, decide_eq_true_eq]
      exact ⟨⟨h1, h2⟩, h3⟩
    · simp only [Memory.risesFrom, Bool.and_eq_true, decide_eq_true_eq]
      exact ⟨⟨h1, h2⟩, ih _ (by omega) h3⟩

@[simp] theorem Memory.wf_nil : Memory.wf [] = true := rfl

/-- A write at an existing address keeps the canonical form. -/
theorem Memory.wf_write {m : Memory} {a : Nat} (v : Byte) (ha : a < Config.bufCap)
    (h : Memory.wf m = true) : Memory.wf (Memory.write m a v) = true :=
  Memory.risesFrom_write a v ha m 0 (Nat.zero_le a) h

/-- Consecutive writes at existing addresses keep the canonical form. -/
theorem Memory.wf_writeFrom (vs : List Byte) :
    ∀ (m : Memory) (a : Nat), a + vs.length ≤ Config.bufCap → Memory.wf m = true →
      Memory.wf (Memory.writeFrom m a vs) = true := by
  induction vs with
  | nil => intro m a _ h; exact h
  | cons v vs ih =>
    intro m a ha h
    simp only [List.length_cons] at ha
    exact ih _ _ (by omega) (Memory.wf_write v (by omega) h)

/-- The canonical form is canonical: two canonical memories that read alike are the same list. -/
theorem Memory.eq_of_read_eq : ∀ (m m' : Memory) (l : Nat),
    Memory.risesFrom l m = true → Memory.risesFrom l m' = true →
    (∀ a, Memory.read m a = Memory.read m' a) → m = m' := by
  have below : ∀ (m : Memory) (l a : Nat), Memory.risesFrom l m = true → a < l →
      Memory.read m a = none := by
    intro m
    induction m with
    | nil => intros; rfl
    | cons c m ih =>
      obtain ⟨k, w⟩ := c
      intro l a h ha
      simp only [Memory.risesFrom, Bool.and_eq_true, decide_eq_true_eq] at h
      simp only [Memory.read]
      rw [if_neg (by omega), ih (k + 1) a h.2 (by omega)]
  intro m
  induction m with
  | nil =>
    intro m' l _ _ hr
    cases m' with
    | nil => rfl
    | cons c m' =>
      obtain ⟨k, w⟩ := c
      have := hr k
      simp [Memory.read] at this
  | cons c m ih =>
    obtain ⟨k, w⟩ := c
    intro m' l h h' hr
    cases m' with
    | nil =>
      have := hr k
      simp [Memory.read] at this
    | cons c' m' =>
      obtain ⟨k', w'⟩ := c'
      simp only [Memory.risesFrom, Bool.and_eq_true, decide_eq_true_eq] at h h'
      have hk : k = k' := by
        by_contra hne
        rcases Nat.lt_or_gt_of_ne hne with hlt | hgt
        · have := hr k
          simp only [Memory.read, if_true, if_neg hne] at this
          rw [below m' (k' + 1) k h'.2 (by omega)] at this
          cases this
        · have := hr k'
          simp only [Memory.read, if_true, if_neg (Ne.symm hne)] at this
          rw [below m (k + 1) k' h.2 (by omega)] at this
          cases this
      subst hk
      have hw : w = w' := by simpa [Memory.read] using hr k
      subst hw
      congr 1
      refine ih m' (k + 1) h.2 h'.2 fun a => ?_
      by_cases ha : a = k
      · subst ha; rw [below m _ _ h.2 (by omega), below m' _ _ h'.2 (by omega)]
      · simpa [Memory.read, ha] using hr a

end Sys2Proof.Machine
end

