-- ==== Sys2Proof/Laws/Ops.lean ====
section
/-! SUPPORT. What each shared operation does, said once. -/

namespace Sys2Proof.Machine

/-- Everything `SETID` can do. -/
theorem State.configure_cases (id : Half) (s : State) :
    (1 ≤ id.toNat ∧ id.toNat ≤ 247 ∧
      s.configure id = { s with slaveId := lo id, idValid := true, status := .ok }) ∨
    ((id.toNat = 0 ∨ 248 ≤ id.toNat) ∧ s.configure id = { s with status := .idRejected }) := by
  by_cases h : idLegal id = true
  · left
    have h' := h
    simp only [idLegal, Bool.and_eq_true, decide_eq_true_eq] at h'
    simp only [Config.sidMin, Config.sidMax] at h'
    exact ⟨h'.1, h'.2, by rw [State.configure, if_pos h]; rfl⟩
  · right
    have h' := h
    simp only [idLegal, Bool.and_eq_true, decide_eq_true_eq] at h'
    simp only [Config.sidMin, Config.sidMax] at h'
    exact ⟨by omega, by rw [State.configure, if_neg h]; rfl⟩

/-- Everything an encode operation can do. -/
theorem State.build_cases (addr val : Half) (s : State) :
    (s.idValid = true ∧ s.build addr val = { s with
      tx := Memory.writeFrom s.tx 0 (encodeWSR s.slaveId addr val), txValid := true,
      crc := crc16 (wsrPayload s.slaveId addr val), status := .ok }) ∨
    (s.idValid = false ∧ s.build addr val = { s with status := .notConfigured }) := by
  by_cases h : s.idValid = true
  · exact .inl ⟨h, by rw [State.build, if_pos h]; rfl⟩
  · exact .inr ⟨by simpa using h, by rw [State.build, if_neg h]; rfl⟩

/-- Everything `RXPUSH` can do. -/
theorem State.push_cases (b : Byte) (s : State) :
    (s.rxLen ≠ 8 ∧ s.push b = { s with
      rx := Memory.write s.rx s.rxLen.val b, rxLen := s.rxLen + 1, status := .ok }) ∨
    (s.rxLen = 8 ∧ s.push b = { s with rxOvf := true, status := .rxOverflow }) := by
  by_cases h : s.rxLen = 8
  · exact .inr ⟨h, by rw [State.push, if_pos h]; rfl⟩
  · exact .inl ⟨h, by rw [State.push, if_neg h]; rfl⟩

/-- Everything `DEC` can do. -/
theorem State.judge_cases (efc : Byte) (s : State) :
    (s.idValid = true ∧ s.rxOvf = false ∧ s.judge efc = { s with
      crc := s.recomputedCrc, excode := (decodeResponse s.rxBytes s.slaveId efc).2,
      status := (decodeResponse s.rxBytes s.slaveId efc).1 }) ∨
    (s.idValid = false ∧ s.judge efc = { s with status := .notConfigured }) ∨
    (s.idValid = true ∧ s.rxOvf = true ∧ s.judge efc = { s with status := .rxOverflow }) := by
  by_cases h : s.idValid = false
  · exact .inr (.inl ⟨h, by rw [State.judge, if_pos h]; rfl⟩)
  · have h1 : s.idValid = true := by simpa using h
    by_cases h' : s.rxOvf = true
    · exact .inr (.inr ⟨h1, h', by rw [State.judge, if_neg h, if_pos h']; rfl⟩)
    · exact .inl ⟨h1, by simpa using h', by rw [State.judge, if_neg h, if_neg h']; rfl⟩

/-- The results `decodeResponse` can give; a code other than 0 comes with `SlaveException` only. -/
theorem decodeResponse_cases (s : List Byte) (esid efc : Byte) :
    decodeResponse s esid efc = (.malformedFrame, 0x00#8) ∨
    decodeResponse s esid efc = (.checksumMismatch, 0x00#8) ∨
    decodeResponse s esid efc = (.unexpectedSlave, 0x00#8) ∨
    decodeResponse s esid efc = (.ack, 0x00#8) ∨
    decodeResponse s esid efc = (.slaveException, s.getD 2 0) := by
  unfold decodeResponse
  split_ifs <;> simp

/-! ## The received bytes -/

@[simp] theorem State.rxBytes_length (s : State) : s.rxBytes.length = s.rxLen.val := by
  simp [State.rxBytes]

/-- The received bytes, one by one. -/
theorem State.rxBytes_getElem? (s : State) (a : Nat) :
    s.rxBytes[a]? = if a < s.rxLen.val then some (s.rxByte a) else none := by
  by_cases h : a < s.rxLen.val
  · simp [State.rxBytes, h]
  · simp [State.rxBytes, h]

/-- The received bytes depend on the receive side only. -/
theorem State.rxBytes_congr {s t : State} (h1 : t.rx = s.rx) (h2 : t.rxLen = s.rxLen)
    (h3 : t.epoch = s.epoch) : t.rxBytes = s.rxBytes := by
  simp only [State.rxBytes, State.rxByte, h1, h2, h3]

/-- A list whose bytes are those written below `RXLEN` is the list of received bytes. -/
theorem State.rxBytes_eq {s : State} {bs : List Byte} (hl : bs.length = s.rxLen.val)
    (h : ∀ a, a < bs.length → Memory.read s.rx a = bs[a]?) : s.rxBytes = bs := by
  apply List.ext_getElem?
  intro a
  rw [State.rxBytes_getElem?]
  by_cases ha : a < s.rxLen.val
  · rw [if_pos ha, State.rxByte, if_pos ha, h a (by omega), List.getElem?_eq_getElem (by omega)]
    rfl
  · rw [if_neg ha, List.getElem?_eq_none (by omega)]

@[simp] theorem State.rxBytes_clear (s : State) : s.clear.rxBytes = [] := rfl

theorem Fin.val_succ_of_ne_eight {n : Fin 9} (h : n ≠ 8) : (n + 1).val = n.val + 1 := by
  revert h; revert n; decide

theorem Fin.lt_eight_of_ne {n : Fin 9} (h : n ≠ 8) : n.val < 8 := by
  revert h; revert n; decide

/-- A push on a buffer with room appends to the received bytes. -/
theorem State.rxBytes_push {s : State} (b : Byte) (h : s.rxLen ≠ 8) :
    (s.push b).rxBytes = s.rxBytes ++ [b] := by
  rcases s.push_cases b with ⟨_, hp⟩ | ⟨h', _⟩
  · have hn := Fin.val_succ_of_ne_eight h
    apply List.ext_getElem?
    intro a
    rw [State.rxBytes_getElem?, List.getElem?_append, State.rxBytes_getElem?, hp]
    simp only [State.rxByte, State.rxBytes_length, hn]
    rcases Nat.lt_trichotomy a s.rxLen.val with ha | ha | ha
    · rw [if_pos (by omega), if_pos ha, if_pos ha, Memory.read_write_other _ _ (by omega),
        if_pos (by omega), if_pos ha]
    · subst ha; simp
    · rw [if_neg (by omega), if_neg (by omega), List.getElem?_eq_none (by simp; omega)]
  · exact absurd h' h

/-! ## The reading loop of R100 -/

/-- Several pushes. -/
def State.pushAll : List Byte → State → State
  | [], s => s
  | b :: bs, s => State.pushAll bs (s.push b)

/-- Pushes that fit: the bytes stand at consecutive addresses from `RXLEN` on, and nothing else changes but `STATUS`. -/
theorem State.pushAll_eq (bs : List Byte) :
    ∀ s : State, s.status = .ok → s.rxLen.val + bs.length ≤ 8 →
      s.pushAll bs = { s with
        rx := Memory.writeFrom s.rx s.rxLen.val bs, rxLen := Fin.ofNat 9 (s.rxLen.val + bs.length) } := by
  induction bs with
  | nil =>
    intro s _ _
    ext <;> simp [State.pushAll, Memory.writeFrom]
  | cons b bs ih =>
    intro s hs hl
    simp only [List.length_cons] at hl
    have h8 : s.rxLen ≠ 8 := by
      intro h
      rw [h] at hl
      simp at hl
    rcases s.push_cases b with ⟨_, hp⟩ | ⟨h', _⟩
    · have hn := Fin.val_succ_of_ne_eight h8
      rw [State.pushAll, ih _ (by rw [hp]) (by rw [hp]; simp only [hn]; omega), hp]
      simp only [hn, Memory.writeFrom, List.length_cons, hs]
      congr 2
      omega
    · exact absurd h' h8

/-- The received bytes after pushes that fit. -/
theorem State.rxBytes_pushAll (bs : List Byte) :
    ∀ s : State, s.rxLen.val + bs.length ≤ 8 → (s.pushAll bs).rxBytes = s.rxBytes ++ bs := by
  induction bs with
  | nil => intro s _; simp [State.pushAll]
  | cons b bs ih =>
    intro s hl
    simp only [List.length_cons] at hl
    have h8 : s.rxLen ≠ 8 := by
      intro h
      rw [h] at hl
      simp at hl
    rcases s.push_cases b with ⟨_, hp⟩ | ⟨h', _⟩
    · have hn := Fin.val_succ_of_ne_eight h8
      rw [State.pushAll, ih _ (by rw [hp]; simp only [hn]; omega), State.rxBytes_push b h8]
      simp
    · exact absurd h' h8

/-- A frame needs five or eight bytes. -/
theorem need_eq (s : List Byte) : need s = 5 ∨ need s = 8 := by
  unfold need
  split
  · split_ifs
    · exact .inl rfl
    · exact .inr rfl
  · exact .inl rfl

/-- From two bytes on, what a frame needs is settled by byte 1. -/
theorem need_append {p : List Byte} (h : 2 ≤ p.length) (q : List Byte) : need (p ++ q) = need p := by
  match p, h with
  | _ :: _ :: _, _ => rfl

/-- `RXCOMPLETE`, in terms of the received bytes. -/
theorem State.rxComplete_iff (s : State) : s.rxComplete = true ↔ need s.rxBytes ≤ s.rxLen.val := by
  simp only [State.rxComplete, decide_eq_true_eq]
  rfl

/-- The reading loop, from a state that still needs bytes. -/
theorem State.receiveLoop_eq (bs : List Byte) :
    ∀ s : State, s.rxLen.val ≤ need (s.rxBytes ++ bs) →
      State.receiveLoop bs s =
        if s.rxLen.val + bs.length < need (s.rxBytes ++ bs) then s.pushAll bs
        else (s.pushAll (bs.take (need (s.rxBytes ++ bs) - s.rxLen.val))).judge Config.fcWsr := by
  induction bs with
  | nil =>
    intro s hn
    simp only [List.append_nil] at hn
    simp only [State.receiveLoop, State.rxComplete_iff, List.append_nil, List.length_nil,
      Nat.add_zero, List.take_nil, State.pushAll]
    by_cases h : need s.rxBytes ≤ s.rxLen.val
    · rw [if_pos h, if_neg (by omega)]
    · rw [if_neg h, if_pos (by omega)]
  | cons b bs ih =>
    intro s hn
    by_cases hc : need s.rxBytes ≤ s.rxLen.val
    · have h2 : 2 ≤ s.rxBytes.length := by
        rw [State.rxBytes_length]
        rcases need_eq s.rxBytes with h | h <;> omega
      rw [need_append h2] at hn ⊢
      have he : need s.rxBytes - s.rxLen.val = 0 := by omega
      simp only [State.receiveLoop, State.rxComplete_iff]
      rw [if_pos hc, if_neg (by omega), he]
      rfl
    · have h8 : s.rxLen ≠ 8 := by
        intro h
        rw [h] at hc
        simp at hc
        rcases need_eq s.rxBytes with h | h <;> omega
      have hlt : s.rxLen.val < need (s.rxBytes ++ b :: bs) := by
        by_cases h2 : 2 ≤ s.rxBytes.length
        · rw [need_append h2]; omega
        · rw [State.rxBytes_length] at h2
          rcases need_eq (s.rxBytes ++ b :: bs) with h | h <;> omega
      have hp : (s.push b).rxLen.val = s.rxLen.val + 1 := by
        rcases s.push_cases b with ⟨_, hp⟩ | ⟨h', _⟩
        · rw [hp]; exact Fin.val_succ_of_ne_eight h8
        · exact absurd h' h8
      have hb : (s.push b).rxBytes ++ bs = s.rxBytes ++ b :: bs := by
        rw [State.rxBytes_push b h8]; simp
      have hi := ih (s.push b) (by rw [hb, hp]; omega)
      simp only [State.receiveLoop, State.rxComplete_iff]
      rw [if_neg hc, hi, hb, hp]
      have e1 : s.rxLen.val + (b :: bs).length = s.rxLen.val + 1 + bs.length := by
        simp only [List.length_cons]; omega
      have e2 : need (s.rxBytes ++ b :: bs) - s.rxLen.val =
          need (s.rxBytes ++ b :: bs) - (s.rxLen.val + 1) + 1 := by omega
      rw [e1, e2, List.take_succ_cons]
      rfl

/-- Everything the reception of a response can do (R100): too few bytes are held and not judged; otherwise exactly the
needed bytes are held and judged. -/
theorem State.receive_eq (bytes : List Byte) (s : State) :
    s.receive bytes =
      if bytes.length < need bytes then s.clear.pushAll bytes
      else (s.clear.pushAll (bytes.take (need bytes))).judge Config.fcWsr := by
  have h := State.receiveLoop_eq bytes s.clear (Nat.zero_le _)
  rw [State.rxBytes_clear, List.nil_append, show s.clear.rxLen.val = 0 from rfl, Nat.zero_add,
    Nat.sub_zero] at h
  exact h

end Sys2Proof.Machine
end

