-- ==== Sys2Proof/Laws/PerInstr.lean ====
section
/-! SUPPORT. Statements about every instruction as syntax, one lemma per constructor. -/

namespace Sys2Proof.Laws.TableRow

open Sys2Proof.Machine

/-- What an instruction encodes to fits the opcode table's row of its mnemonic (R55, R60): a command word by match and mask;
a frame by its length and its function-code byte. -/
def Statement (i : Instr) : Prop :=
  match encode i with
  | .command cw => ∃ r ∈ commandRows, r.mnemonic = i.mnemonic ∧ cw &&& r.mask = r.pattern
  | .response bytes =>
    (i.mnemonic = "FRAME_WSR" ∧ bytes.length = 8 ∧ bytes[1]? = some 0x06#8) ∨
    (i.mnemonic = "FRAME_EXCEPTION" ∧ bytes.length = 5 ∧ bytes[1]? = some 0x86#8)

/-- A command word under a mask, field by field. -/
theorem commandWord_and (op op' : Byte) (a a' b b' : Half) :
    commandWord op a b &&& commandWord op' a' b' = commandWord (op &&& op') (a &&& a') (b &&& b') := by
  apply BitVec.eq_of_getLsbD_eq
  intro i _
  simp only [commandWord, BitVec.getLsbD_and, BitVec.getLsbD_append]
  split_ifs <;> rfl

theorem join_zero_and (b : Byte) : join 0#8 b &&& 0xFF00#16 = 0x0000#16 := by
  revert b; decide

theorem crcinit : Statement .crcinit := ⟨commandRows[0], by decide, rfl, by decide⟩

theorem crcbyte (b : Byte) : Statement (.crcbyte b) :=
  ⟨commandRows[1], by decide, rfl, by
    change commandWord _ _ _ &&& commandWord 0xFF#8 0xFFFF#16 0xFF00#16 = _
    rw [commandWord_and, join_zero_and]; decide⟩

theorem setid (id : Half) : Statement (.setid id) :=
  ⟨commandRows[2], by decide, rfl, by
    change commandWord _ _ _ &&& commandWord 0xFF#8 0xFFFF#16 0x0000#16 = _
    rw [commandWord_and, BitVec.and_zero]; decide⟩

theorem encwsr (addr val : Half) : Statement (.encwsr addr val) :=
  ⟨commandRows[3], by decide, rfl, by
    change commandWord _ _ _ &&& commandWord 0xFF#8 0x0000#16 0x0000#16 = _
    rw [commandWord_and, BitVec.and_zero, BitVec.and_zero]; decide⟩

theorem rotcw : Statement .rotcw := ⟨commandRows[4], by decide, rfl, by decide⟩

theorem rotccw : Statement .rotccw := ⟨commandRows[5], by decide, rfl, by decide⟩

theorem setfreq (val : Half) : Statement (.setfreq val) :=
  ⟨commandRows[6], by decide, rfl, by
    change commandWord _ _ _ &&& commandWord 0xFF#8 0xFFFF#16 0x0000#16 = _
    rw [commandWord_and, BitVec.and_zero]; decide⟩

theorem stop : Statement .stop := ⟨commandRows[7], by decide, rfl, by decide⟩

theorem rxclr : Statement .rxclr := ⟨commandRows[8], by decide, rfl, by decide⟩

theorem rxpush (b : Byte) : Statement (.rxpush b) :=
  ⟨commandRows[9], by decide, rfl, by
    change commandWord _ _ _ &&& commandWord 0xFF#8 0xFFFF#16 0xFF00#16 = _
    rw [commandWord_and, join_zero_and]; decide⟩

theorem dec (efc : Byte) : Statement (.dec efc) :=
  ⟨commandRows[10], by decide, rfl, by
    change commandWord _ _ _ &&& commandWord 0xFF#8 0xFFFF#16 0xFF00#16 = _
    rw [commandWord_and, join_zero_and]; decide⟩

theorem frameWsr (sid : Byte) (addr val : Half) (crcLo crcHi : Byte) :
    Statement (.frameWsr sid addr val crcLo crcHi) := .inl ⟨rfl, rfl, rfl⟩

theorem frameException (sid code crcLo crcHi : Byte) :
    Statement (.frameException sid code crcLo crcHi) := .inr ⟨rfl, rfl, rfl⟩

end Sys2Proof.Laws.TableRow
end

