-- ==== Sys2Proof/Laws/Step.lean ====
section
/-! SUPPORT. What an instruction and a step can do, said once, and how a property is carried through them. -/

namespace Sys2Proof.Machine

/-! Each instruction's next state, as the shared operation its meaning is made of. -/

theorem exec_crcinit (s : State) :
    exec .crcinit s = .next { s with crc := 0xFFFF#16, status := .ok } := rfl

theorem exec_crcbyte (b : Byte) (s : State) :
    exec (.crcbyte b) s = .next { s with crc := crcByte s.crc b, status := .ok } := rfl

theorem exec_setid (id : Half) (s : State) : exec (.setid id) s = .next (s.configure id) := rfl

theorem exec_encwsr (addr val : Half) (s : State) :
    exec (.encwsr addr val) s = .next (s.build addr val) := rfl

theorem exec_rotcw (s : State) : exec .rotcw s = .next (s.build 0x6000#16 0x0001#16) := rfl

theorem exec_rotccw (s : State) : exec .rotccw s = .next (s.build 0x6000#16 0x0002#16) := rfl

theorem exec_setfreq (val : Half) (s : State) :
    exec (.setfreq val) s = .next (s.build 0x5000#16 val) := rfl

theorem exec_stop (s : State) : exec .stop s = .next (s.build 0x5000#16 0x0000#16) := rfl

theorem exec_rxclr (s : State) : exec .rxclr s = .next s.clear := rfl

theorem exec_rxpush (b : Byte) (s : State) : exec (.rxpush b) s = .next (s.push b) := rfl

theorem exec_dec (efc : Byte) (s : State) : exec (.dec efc) s = .next (s.judge efc) := rfl

theorem exec_frameWsr (sid : Byte) (addr val : Half) (cl ch : Byte) (s : State) :
    exec (.frameWsr sid addr val cl ch) s = .next (s.receive (wsrPayload sid addr val ++ [cl, ch])) := rfl

theorem exec_frameException (sid code cl ch : Byte) (s : State) :
    exec (.frameException sid code cl ch) s =
      .next (s.receive (exceptionPayload sid code ++ [cl, ch])) := rfl

/-- Every instruction answers a next state, whose form is one of seven. -/
theorem exec_cases (i : Instr) (s : State) : ∃ t, exec i s = .next t ∧
    ((i.isCrc = true ∧ ∃ c, t = { s with crc := c, status := .ok }) ∨
     (∃ id, i = .setid id ∧ t = s.configure id) ∨
     (i.isEncode = true ∧ ∃ addr val, t = s.build addr val) ∨
     (i = .rxclr ∧ t = s.clear) ∨
     (∃ b, i = .rxpush b ∧ t = s.push b) ∨
     (∃ efc, i = .dec efc ∧ t = s.judge efc) ∨
     (i.isFrame = true ∧ ∃ bytes, t = s.receive bytes)) := by
  cases i with
  | crcinit => exact ⟨_, rfl, .inl ⟨rfl, _, rfl⟩⟩
  | crcbyte b => exact ⟨_, rfl, .inl ⟨rfl, _, rfl⟩⟩
  | setid id => exact ⟨_, rfl, .inr (.inl ⟨_, rfl, rfl⟩)⟩
  | encwsr addr val => exact ⟨_, rfl, .inr (.inr (.inl ⟨rfl, _, _, rfl⟩))⟩
  | rotcw => exact ⟨_, rfl, .inr (.inr (.inl ⟨rfl, _, _, rfl⟩))⟩
  | rotccw => exact ⟨_, rfl, .inr (.inr (.inl ⟨rfl, _, _, rfl⟩))⟩
  | setfreq val => exact ⟨_, rfl, .inr (.inr (.inl ⟨rfl, _, _, rfl⟩))⟩
  | stop => exact ⟨_, rfl, .inr (.inr (.inl ⟨rfl, _, _, rfl⟩))⟩
  | rxclr => exact ⟨_, rfl, .inr (.inr (.inr (.inl ⟨rfl, rfl⟩)))⟩
  | rxpush b => exact ⟨_, rfl, .inr (.inr (.inr (.inr (.inl ⟨_, rfl, rfl⟩))))⟩
  | dec efc => exact ⟨_, rfl, .inr (.inr (.inr (.inr (.inr (.inl ⟨_, rfl, rfl⟩)))))⟩
  | frameWsr sid addr val crcLo crcHi =>
    exact ⟨_, rfl, .inr (.inr (.inr (.inr (.inr (.inr ⟨rfl, _, rfl⟩)))))⟩
  | frameException sid code crcLo crcHi =>
    exact ⟨_, rfl, .inr (.inr (.inr (.inr (.inr (.inr ⟨rfl, _, rfl⟩)))))⟩

/-- A property that clearing, pushing and judging keep is kept by the reception of any bytes. -/
theorem State.receive_keeps {P : State → Prop} (hclear : ∀ s, P s → P s.clear)
    (hpush : ∀ b s, P s → P (s.push b)) (hjudge : ∀ efc s, P s → P (s.judge efc))
    (bytes : List Byte) (s : State) (h : P s) : P (s.receive bytes) := by
  have loop : ∀ (bs : List Byte) (s : State), P s → P (State.receiveLoop bs s) := by
    intro bs
    induction bs with
    | nil =>
      intro s h
      rw [State.receiveLoop]
      split_ifs
      · exact hjudge _ s h
      · exact h
    | cons b bs ih =>
      intro s h
      rw [State.receiveLoop]
      split_ifs
      · exact hjudge _ s h
      · exact ih _ (hpush b s h)
  exact loop bytes _ (hclear s h)

/-- A property that every shared operation keeps is kept by every instruction. -/
theorem exec_keeps {P : State → Prop}
    (hcrc : ∀ c s, P s → P { s with crc := c, status := .ok })
    (hid : ∀ id s, P s → P (s.configure id)) (hbuild : ∀ addr val s, P s → P (s.build addr val))
    (hclear : ∀ s, P s → P s.clear) (hpush : ∀ b s, P s → P (s.push b))
    (hjudge : ∀ efc s, P s → P (s.judge efc))
    {i : Instr} {s t : State} (h : exec i s = .next t) (hs : P s) : P t := by
  obtain ⟨u, hu, hc⟩ := exec_cases i s
  rw [hu] at h
  cases h
  rcases hc with ⟨_, c, rfl⟩ | ⟨id, _, rfl⟩ | ⟨_, addr, val, rfl⟩ | ⟨_, rfl⟩ | ⟨b, _, rfl⟩ |
    ⟨efc, _, rfl⟩ | ⟨_, bytes, rfl⟩
  · exact hcrc c s hs
  · exact hid id s hs
  · exact hbuild addr val s hs
  · exact hclear s hs
  · exact hpush b s hs
  · exact hjudge efc s hs
  · exact State.receive_keeps hclear hpush hjudge bytes s hs

/-- A presentation answers a next state: the decoded instruction's, a refused command word's, or the reception of bytes. -/
theorem servePresented_cases (p : Presented) (s : State) : ∃ t, servePresented p s = .next t ∧
    ((∃ i, decode p = .ok i ∧ exec i s = .next t) ∨
     (∃ cw, p = .command cw ∧ t = { s with status := .illegalOp }) ∨
     (∃ bytes, p = .response bytes ∧ t = s.receive bytes)) := by
  unfold servePresented
  cases h : decode p with
  | ok i =>
    obtain ⟨t, ht, _⟩ := exec_cases i s
    exact ⟨t, ht, .inl ⟨i, rfl, ht⟩⟩
  | error e =>
    cases p with
    | command cw => exact ⟨_, rfl, .inr (.inl ⟨cw, rfl, rfl⟩)⟩
    | response bytes => exact ⟨_, rfl, .inr (.inr ⟨bytes, rfl, rfl⟩)⟩

/-- Everything a step that goes on can do. -/
theorem step_cases {s t : State} (h : step s = .next t) :
    (s.port = [] ∧ t = s) ∨
    (∃ p rest, s.port = .present p :: rest ∧ servePresented p (s.take rest) = .next t) ∨
    (∃ r rest v, s.port = .read r :: rest ∧ t = s.answer rest v) ∨
    (∃ rest, s.port = .reset :: rest ∧ t = s.resetBlock rest) := by
  unfold step at h
  split at h
  · next hp => cases h; exact .inl ⟨hp, rfl⟩
  · next e rest hp =>
    cases e with
    | present p => exact .inr (.inl ⟨p, rest, hp, h⟩)
    | reset => cases h; exact .inr (.inr (.inr ⟨rest, hp, rfl⟩))
    | read r =>
      refine .inr (.inr (.inl ⟨r, rest, ?_⟩))
      cases r with
      | view n =>
        simp only [serve, serveRead] at h
        split at h
        · next v _ => cases h; exact ⟨v, hp, rfl⟩
        · cases h
      | byte space a =>
        simp only [serve, serveRead] at h
        split at h
        · next b _ => cases h; exact ⟨_, hp, rfl⟩
        · cases h

/-- A property of the block that every shared operation and reset keep, and that does not look at the host's side, is kept
by every step. -/
theorem step_keeps {P : State → Prop}
    (hhost : ∀ (s : State) (port : List HostEvent) (reply : Option Half) (epoch : Nat), P s →
      P { s with port := port, reply := reply, epoch := epoch })
    (hreset : P State.reset)
    (hstatus : ∀ st s, P s → P { s with status := st })
    (hcrc : ∀ c s, P s → P { s with crc := c, status := .ok })
    (hid : ∀ id s, P s → P (s.configure id)) (hbuild : ∀ addr val s, P s → P (s.build addr val))
    (hclear : ∀ s, P s → P s.clear) (hpush : ∀ b s, P s → P (s.push b))
    (hjudge : ∀ efc s, P s → P (s.judge efc))
    {s t : State} (h : step s = .next t) (hs : P s) : P t := by
  rcases step_cases h with ⟨_, rfl⟩ | ⟨p, rest, _, hp⟩ | ⟨r, rest, v, _, rfl⟩ | ⟨rest, _, rfl⟩
  · exact hs
  · have ht : P (s.take rest) := hhost s rest s.reply (s.epoch + 1) hs
    obtain ⟨u, hu, hc⟩ := servePresented_cases p (s.take rest)
    rw [hu] at hp
    cases hp
    rcases hc with ⟨i, _, hi⟩ | ⟨cw, _, rfl⟩ | ⟨bytes, _, rfl⟩
    · exact exec_keeps hcrc hid hbuild hclear hpush hjudge hi ht
    · exact hstatus _ _ ht
    · exact State.receive_keeps hclear hpush hjudge bytes _ ht
  · exact hhost s rest (some v) s.epoch hs
  · exact hhost State.reset rest s.reply (s.epoch + 1) hreset

end Sys2Proof.Machine
end

