-- ==== Sys2Proof/Tests/Slice0.lean ====
section
/-! SUPPORT. The model's own tests. Expected values come from spec/95_test_vectors.md (V and P numbers) and the examples in the
rules. Then, for every statement of Obligations.lean that has hypotheses, a witness that meets them. -/

namespace Sys2Proof.Tests

open Machine

/-! ## Helpers -/

/-- The next state, if there is one. -/
def after (o : Host.Outcome State Fault Refusal) : Option State :=
  match o with
  | .next t => some t
  | _ => none

/-- The block after reset, configured with a slave id. -/
def configured (sid : Byte) : State := { State.reset with slaveId := sid, idValid := true }

/-- A state with received bytes in the buffer. -/
def State.holding (s : State) (bs : List Byte) : State :=
  { s with rx := Memory.writeFrom [] 0 bs, rxLen := Fin.ofNat 9 bs.length }

/-- The received bytes of a state with an id and bytes, judged. -/
def judged (sid : Byte) (bs : List Byte) (efc : Byte) : Option (Status × Byte × Half) :=
  (after (exec (.dec efc) (State.holding (configured sid) bs))).map fun t => (t.status, t.excode, t.crc)

/-- `TXBUF`, `CRC`, `TXVALID` and `STATUS` after an operation on a block with this id. -/
def built (sid : Byte) (i : Instr) : Option (List (Option Byte) × Half × Bool × Status) :=
  (after (exec i (configured sid))).map fun t =>
    ((List.range 8).map (Memory.read t.tx), t.crc, t.txValid, t.status)

/-- The echo of V11. -/
def echoV11 : List Byte := [0x01#8, 0x06#8, 0x60#8, 0x00#8, 0x00#8, 0x01#8, 0x56#8, 0x0A#8]

/-- The exception frame of V26. -/
def excV26 : List Byte := [0x01#8, 0x86#8, 0x02#8, 0xC3#8, 0xA1#8]

/-- A full buffer, with the overflow mark. -/
def overflowed : State := { State.holding (configured 0x01#8) echoV11 with rxOvf := true }

/-! ## Well-formedness: the CRC bytes of a frame (R46, R47, R60) -/

theorem test_wellFormed_accepts_frames :
    Instr.wellFormed (.frameWsr 0x01#8 0x6000#16 0x0001#16 0x56#8 0x0A#8) = true ∧
    Instr.wellFormed (.frameException 0x01#8 0x02#8 0xC3#8 0xA1#8) = true := by decide +kernel

theorem test_wellFormed_refuses_wsr_crcLo :
    Instr.wellFormed (.frameWsr 0x01#8 0x6000#16 0x0001#16 0x57#8 0x0A#8) = false := by decide +kernel

theorem test_wellFormed_refuses_wsr_crcHi :
    Instr.wellFormed (.frameWsr 0x01#8 0x6000#16 0x0001#16 0x56#8 0x0B#8) = false := by decide +kernel

theorem test_wellFormed_refuses_exception_crcLo :
    Instr.wellFormed (.frameException 0x01#8 0x02#8 0xC2#8 0xA1#8) = false := by decide +kernel

theorem test_wellFormed_refuses_exception_crcHi :
    Instr.wellFormed (.frameException 0x01#8 0x02#8 0xC3#8 0xA0#8) = false := by decide +kernel

/-! ## Decoding words written out from the spec (R46, R47, R54; P1 to P7, V40) -/

theorem test_decode_crcinit : decodeTableWord 40 0x0100000000 = some .crcinit := by decide

theorem test_decode_crcbyte : decodeTableWord 40 0x0200000056 = some (.crcbyte 0x56#8) := by decide

theorem test_decode_setid : decodeTableWord 40 0x03000000F8 = some (.setid 0x00F8#16) := by decide

theorem test_decode_encwsr :
    decodeTableWord 40 0x041234ABCD = some (.encwsr 0x1234#16 0xABCD#16) := by decide

theorem test_decode_rotcw : decodeTableWord 40 0x0500000000 = some .rotcw := by decide

theorem test_decode_rotccw : decodeTableWord 40 0x0600000000 = some .rotccw := by decide

theorem test_decode_setfreq : decodeTableWord 40 0x0700001388 = some (.setfreq 0x1388#16) := by decide

theorem test_decode_stop : decodeTableWord 40 0x0800000000 = some .stop := by decide

theorem test_decode_rxclr : decodeTableWord 40 0x0900000000 = some .rxclr := by decide

theorem test_decode_rxpush : decodeTableWord 40 0x0A000000C3 = some (.rxpush 0xC3#8) := by decide

theorem test_decode_dec : decodeTableWord 40 0x0B00000086 = some (.dec 0x86#8) := by decide

theorem test_decode_frameWsr : decodeTableWord 64 0x010660000001560A =
    some (.frameWsr 0x01#8 0x6000#16 0x0001#16 0x56#8 0x0A#8) := by decide

theorem test_decode_frameException : decodeTableWord 40 0x018602C3A1 =
    some (.frameException 0x01#8 0x02#8 0xC3#8 0xA1#8) := by decide

theorem test_decode_illegal :
    ([0x0000000000, 0x0C00000000, 0xFF00000000, 0x0500000001, 0x0A00000100, 0x0100010000] : List Nat).map
      (decodeTableWord 40) = [none, none, none, none, none, none] := by decide

theorem test_rows_are_the_table : commandRows.map (fun r => (r.pattern.toNat / 2 ^ 32, r.mask.toNat)) =
    [(1, 0xFFFFFFFFFF), (2, 0xFFFFFFFF00), (3, 0xFFFFFF0000), (4, 0xFF00000000), (5, 0xFFFFFFFFFF),
     (6, 0xFFFFFFFFFF), (7, 0xFFFFFF0000), (8, 0xFFFFFFFFFF), (9, 0xFFFFFFFFFF), (10, 0xFFFFFFFF00),
     (11, 0xFFFFFFFF00)] := by decide

theorem test_encode_words :
    encode (.encwsr 0x1234#16 0xABCD#16) = .command 0x041234ABCD#40 ∧
    encode (.rxpush 0xC3#8) = .command 0x0A000000C3#40 ∧
    encode (.setfreq 0x1388#16) = .command 0x0700001388#40 ∧
    encode (.frameException 0x01#8 0x02#8 0xC3#8 0xA1#8) = .response excV26 := by decide

/-! ## One step runs the word presented -/

theorem test_step_setid :
    (after (step (State.reset.withFetchWord 40 0x0300000001))).map
      (fun t => (t.slaveId, t.idValid, t.status, t.port)) = some (0x01#8, true, .ok, []) := by decide

theorem test_step_illegal : (after (step (State.reset.withFetchWord 40 0x0A00000100))).map
    (fun t => (t.status, t.rxLen, t.crc)) = some (.illegalOp, 0, 0xFFFF#16) := by decide

theorem test_step_frameWsr :
    (after (step ((configured 0x01#8).withFetchWord 64 0x010660000001560A))).map
      (fun t => (t.status, t.rxLen, t.rxBytes)) = some (.ack, 8, echoV11) := by decide +kernel

theorem test_step_frameException :
    (after (step ((configured 0x01#8).withFetchWord 40 0x018602C3A1))).map
      (fun t => (t.status, t.excode, t.rxLen)) = some (.slaveException, 0x02#8, 5) := by decide +kernel

theorem test_step_read_view : (after (step { State.reset with port := [.read (.view 3)] })).map
    (fun t => t.reply) = some (some 0x0500#16) := by decide

theorem test_step_read_byte :
    (after (step { State.holding (configured 0x01#8) excV26 with port := [.read (.byte .rx 3)] })).map
      (fun t => (t.reply, t.status)) = some (some 0x00C3#16, .idle) := by decide

/-- V28, bytes of neither frame row, with one byte after the frame. -/
theorem test_step_other_function_code :
    (after (step { overflowed with port := [.present (.response
      [0x01#8, 0x03#8, 0x60#8, 0x00#8, 0x00#8, 0x01#8, 0x9A#8, 0x0A#8, 0xFF#8])] })).map
      (fun t => (t.status, t.excode, t.crc, t.rxLen, t.rxOvf)) =
    some (.malformedFrame, 0x00#8, 0x0A9A#16, 8, false) := by decide +kernel

/-! ## The CRC generator (V1 to V10, P3) -/

theorem test_crc16_vectors : crc16 [] = 0xFFFF#16 ∧ crc16 (echoV11.take 6) = 0x0A56#16 ∧
    crc16 [0x31#8, 0x32#8, 0x33#8, 0x34#8, 0x35#8, 0x36#8, 0x37#8, 0x38#8, 0x39#8] = 0x4B37#16 := by
  decide +kernel

theorem test_crcinit : (after (exec .crcinit { State.reset with crc := 0x0A56#16 })).map
    (fun t => (t.crc, t.status)) = some (0xFFFF#16, .ok) := by decide

theorem test_crcbyte : (after (exec (.crcbyte 0x01#8) State.reset)).map
    (fun t => (t.crc, t.status)) = some (0x807E#16, .ok) := by decide

theorem test_crcbyte_zero : (after (exec (.crcbyte 0x00#8) State.reset)).map
    (fun t => t.crc) = some 0x40BF#16 := by decide

/-! ## Configuration and the encoder (V11 to V19m, V41) -/

theorem test_setid_edges : (([0x0001#16, 0x00F7#16, 0x0000#16, 0x00F8#16, 0x0101#16, 0xFFFF#16] : List Half).map
    fun id => (after (exec (.setid id) State.reset)).map fun t => (t.slaveId, t.idValid, t.status)) =
    [some (0x01#8, true, .ok), some (0xF7#8, true, .ok), some (0x00#8, false, .idRejected),
     some (0x00#8, false, .idRejected), some (0x00#8, false, .idRejected),
     some (0x00#8, false, .idRejected)] := by decide

theorem test_setid_keeps_earlier : (after (exec (.setid 0x00F8#16) (configured 0x01#8))).map
    (fun t => (t.slaveId, t.idValid, t.status)) = some (0x01#8, true, .idRejected) := by decide

theorem test_encwsr : built 0x02#8 (.encwsr 0x1234#16 0xABCD#16) =
    some ([some 0x02#8, some 0x06#8, some 0x12#8, some 0x34#8, some 0xAB#8, some 0xCD#8, some 0x73#8,
      some 0xEA#8], 0xEA73#16, true, .ok) := by decide +kernel

theorem test_encwsr_unconfigured : (after (exec (.encwsr 0x1234#16 0xABCD#16) State.reset)).map
    (fun t => (t.tx, t.crc, t.txValid, t.status)) = some ([], 0xFFFF#16, false, .notConfigured) := by decide

theorem test_rotcw : built 0xF7#8 .rotcw =
    some ([some 0xF7#8, some 0x06#8, some 0x60#8, some 0x00#8, some 0x00#8, some 0x01#8, some 0x42#8,
      some 0x9C#8], 0x9C42#16, true, .ok) := by decide +kernel

theorem test_rotccw : built 0x01#8 .rotccw =
    some ([some 0x01#8, some 0x06#8, some 0x60#8, some 0x00#8, some 0x00#8, some 0x02#8, some 0x16#8,
      some 0x0B#8], 0x0B16#16, true, .ok) := by decide +kernel

theorem test_setfreq : built 0x01#8 (.setfreq 0x1388#16) =
    some ([some 0x01#8, some 0x06#8, some 0x50#8, some 0x00#8, some 0x13#8, some 0x88#8, some 0x95#8,
      some 0x9C#8], 0x9C95#16, true, .ok) := by decide +kernel

theorem test_stop : built 0x11#8 .stop =
    some ([some 0x11#8, some 0x06#8, some 0x50#8, some 0x00#8, some 0x00#8, some 0x00#8, some 0x9A#8,
      some 0x5A#8], 0x5A9A#16, true, .ok) := by decide +kernel

/-! ## Receiving and decoding (V20 to V46) -/

theorem test_rxclr : (after (exec .rxclr overflowed)).map
    (fun t => (t.rxLen, t.rxOvf, t.status)) = some (0, false, .ok) := by decide

theorem test_rxpush_last : (after (exec (.rxpush 0x00#8) (State.holding State.reset (echoV11.take 7)))).map
    (fun t => (t.rxLen, Memory.read t.rx 7, t.status)) = some (8, some 0x00#8, .ok) := by decide

theorem test_rxpush_overflow : (after (exec (.rxpush 0xAA#8) (State.holding State.reset echoV11))).map
    (fun t => (t.rxLen, t.rxOvf, t.status, t.rxBytes)) = some (8, true, .rxOverflow, echoV11) := by decide

theorem test_need : ([[], [0x01#8], [0x01#8, 0x06#8], [0x01#8, 0x86#8], [0x01#8, 0x83#8, 0x00#8],
    [0x01#8, 0x7F#8]] : List (List Byte)).map need = [5, 5, 8, 5, 5, 8] := by decide

theorem test_dec_results :
    judged 0x01#8 echoV11 0x06#8 = some (.ack, 0x00#8, 0x0A56#16) ∧
    judged 0x02#8 echoV11 0x06#8 = some (.unexpectedSlave, 0x00#8, 0x0A56#16) ∧
    judged 0x01#8 [0x00#8, 0x06#8, 0x60#8, 0x00#8, 0x00#8, 0x01#8, 0x56#8, 0x0A#8] 0x06#8 =
      some (.checksumMismatch, 0x00#8, 0xDB57#16) ∧
    judged 0x01#8 [0x01#8, 0x03#8, 0x60#8, 0x00#8, 0x00#8, 0x01#8, 0x9A#8, 0x0A#8] 0x06#8 =
      some (.malformedFrame, 0x00#8, 0x0A9A#16) ∧
    judged 0x01#8 excV26 0x06#8 = some (.slaveException, 0x02#8, 0xA1C3#16) ∧
    judged 0x01#8 excV26 0x86#8 = some (.ack, 0x00#8, 0xA1C3#16) := by decide +kernel

theorem test_dec_lengths :
    judged 0x01#8 (echoV11.take 4) 0x06#8 = some (.malformedFrame, 0x00#8, 0xFFFF#16) ∧
    judged 0x01#8 (echoV11.take 5) 0x06#8 = some (.checksumMismatch, 0x00#8, 0x8823#16) ∧
    judged 0x01#8 [0x01#8, 0x06#8, 0x60#8, 0x00#8, 0xC9#8, 0xD9#8] 0x06#8 =
      some (.ack, 0x00#8, 0xD9C9#16) ∧
    judged 0x01#8 [0x01#8, 0x86#8, 0x02#8, 0x00#8, 0x00#8, 0x00#8, 0x89#8, 0xAC#8] 0x06#8 =
      some (.slaveException, 0x02#8, 0xAC89#16) := by decide +kernel

theorem test_dec_priority :
    (after (exec (.dec 0x06#8) { overflowed with idValid := false })).map (fun t => t.status) =
      some .notConfigured ∧
    (after (exec (.dec 0x06#8) overflowed)).map (fun t => t.status) = some .rxOverflow := by decide

theorem test_frameWsr :
    (after (exec (.frameWsr 0x01#8 0x6000#16 0x0001#16 0x56#8 0x0A#8) overflowed)).map
      (fun t => (t.status, t.rxOvf)) = some (.ack, false) ∧
    (after (exec (.frameWsr 0x01#8 0x6000#16 0x0001#16 0x56#8 0x0A#8) State.reset)).map
      (fun t => (t.status, t.crc)) = some (.notConfigured, 0xFFFF#16) := by decide +kernel

theorem test_frameException_other_slave :
    (after (exec (.frameException 0x01#8 0x02#8 0xC3#8 0xA1#8) (configured 0x02#8))).map
      (fun t => (t.status, t.excode, t.crc)) = some (.unexpectedSlave, 0x00#8, 0xA1C3#16) := by decide +kernel

/-! ## Witnesses: the hypotheses of the statements can be met -/

/-- A state with one event to come. -/
def facing (e : HostEvent) : State := { configured 0x01#8 with port := [e] }

theorem witness_EncodeOfDecodeIsWord :
    decode (.command 0x0300000001#40) = .ok (.setid 0x0001#16) ∧
    decode (.response excV26) = .ok (.frameException 0x01#8 0x02#8 0xC3#8 0xA1#8) := by decide

theorem witness_EveryWordFitsOneRowOrIsIllegal :
    (facing (.present (.command 0x0300000001#40))).port = .present (.command 0x0300000001#40) :: [] ∧
    (facing (.present (.command 0x0000000000#40))).port = .present (.command 0x0000000000#40) :: [] := by
  decide

/-- A word for each clause, at the edges of its range. -/
theorem witness_IllegalWordOnlyWritesStatus :
    ([0x0000000000, 0x0C00000000, 0xFF00000000, 0x0100010000, 0x0500000001, 0x0680000000, 0x0800008000,
      0x0900000001, 0x0200000100, 0x0A00000100, 0x0B80000000, 0x0300010000, 0x0780000000] :
      List CommandWord).all (fun cw =>
        decide ((facing (.present (.command cw))).port = .present (.command cw) :: [] ∧
          (let op := (cw.extractLsb' 32 8).toNat
           op = 0x00 ∨ 0x0C ≤ op ∨
           ((op = 0x01 ∨ op = 0x05 ∨ op = 0x06 ∨ op = 0x08 ∨ op = 0x09) ∧ cw.extractLsb' 0 32 ≠ 0#32) ∨
           ((op = 0x02 ∨ op = 0x0A ∨ op = 0x0B) ∧ cw.extractLsb' 8 24 ≠ 0#24) ∨
           ((op = 0x03 ∨ op = 0x07) ∧ cw.extractLsb' 16 16 ≠ 0#16)))) = true := by decide

theorem witness_StepRunsDecodedInstr :
    (facing (.present (.command 0x0500000000#40))).port = .present (.command 0x0500000000#40) :: [] ∧
    decode (.command 0x0500000000#40) = .ok .rotcw := by decide

theorem witness_IdleBlockKeepsState : State.reset.port = [] := rfl

theorem witness_EveryPresentationCompletes :
    (facing (.present (.command 0xFF00000000#40))).port = .present (.command 0xFF00000000#40) :: [] ∧
    (facing (.present (.response []))).port = .present (.response []) :: [] := by decide

theorem witness_OnlyHostReadsStop :
    (∀ t, step (facing (.read (.view 5))) ≠ .next t) ∧
    ∀ t, step (facing (.read (.byte .rx 8))) ≠ .next t :=
  ⟨fun _ h => (nomatch (show Host.Outcome.refused (Refusal.noSuchView 5) = Host.Outcome.next _ from h)),
   fun _ h => (nomatch (show Host.Outcome.refused (Refusal.noSuchAddress .rx 8) = Host.Outcome.next _ from h))⟩

theorem witness_ResetLeavesListedValues : Instr.isFrame (.dec 0x06#8) = false := rfl

theorem witness_ResetEventRestoresReset : (facing .reset).port = .reset :: [] := rfl

theorem witness_HostReadsChangeNothingAndRepeat :
    (∃ n, ReadRequest.view 0 = .view n ∧ n ≤ 4) ∧ (∃ n, ReadRequest.view 4 = .view n ∧ n ≤ 4) ∧
    (∃ space a, ReadRequest.byte .tx 0 = .byte space a ∧ a ≤ 7) ∧
    (∃ space a, ReadRequest.byte .rx 7 = .byte space a ∧ a ≤ 7) :=
  ⟨⟨0, rfl, by decide⟩, ⟨4, rfl, by decide⟩, ⟨.tx, 0, rfl, by decide⟩, ⟨.rx, 7, rfl, by decide⟩⟩

/-- The block with the frame of V11 built. -/
def builtV11 : State := { configured 0x01#8 with tx := Memory.writeFrom [] 0 echoV11, txValid := true }

theorem witness_ByteReadsGiveWrittenBytes : (7 : Nat) ≤ 7 ∧
    (builtV11.txValid = true ∧ Memory.read builtV11.tx 7 = some 0x0A#8) ∧ State.reset.txValid = false ∧
    (7 < (State.holding State.reset echoV11).rxLen.val ∧
      Memory.read (State.holding State.reset echoV11).rx 7 = some 0x0A#8) ∧
    (State.holding State.reset excV26).rxLen.val ≤ 5 ∧
    (facing (.read (.byte .rx 7))).port = .read (.byte .rx 7) :: [] := by decide

theorem witness_ReadsOutsideInterfaceStop :
    (5 ≤ 5 ∧ (facing (.read (.view 5))).port = .read (.view 5) :: []) ∧
    (8 ≤ 8 ∧ (facing (.read (.byte .tx 8))).port = .read (.byte .tx 8) :: []) := by decide

theorem witness_ViewsShowListedFields : 5 ≤ 5 ∧ State.reset.view 4 = some 0x0000#16 ∧
    builtV11.txValid = true ∧ State.reset.txValid = false ∧
    (facing (.read (.view 4))).port = .read (.view 4) :: [] := by decide

theorem witness_CrcByteFollowsBitLoop : (0 : Nat) < 8 ∧ (7 : Nat) < 8 := by decide

theorem witness_CrcByteIsLinearAndInjective :
    crcByte 0xFFFF#16 0x01#8 = crcByte 0xFFFF#16 0x01#8 := rfl

theorem witness_SetidAcceptsOneTo247 :
    (1 ≤ (0x0001#16).toNat ∧ (0x0001#16).toNat ≤ 247) ∧ (1 ≤ (0x00F7#16).toNat ∧ (0x00F7#16).toNat ≤ 247) ∧
    ((0x0000#16).toNat = 0 ∨ 248 ≤ (0x0000#16).toNat) ∧
    ((0x00F8#16).toNat = 0 ∨ 248 ≤ (0x00F8#16).toNat) := by decide

/-- Each of the five forms, and a configured and an unconfigured block. -/
theorem witness_EncodeOpsBuildFrameOrRefuse :
    (let form := fun (i : Instr) (addr val : Half) (word : CommandWord) =>
      decide (i = .encwsr addr val ∧ word = 0x04#8 ++ addr ++ val ∨
      i = .rotcw ∧ addr = 0x6000#16 ∧ val = 0x0001#16 ∧ word = 0x0500000000#40 ∨
      i = .rotccw ∧ addr = 0x6000#16 ∧ val = 0x0002#16 ∧ word = 0x0600000000#40 ∨
      i = .setfreq val ∧ addr = 0x5000#16 ∧ word = 0x07#8 ++ 0x0000#16 ++ val ∨
      i = .stop ∧ addr = 0x5000#16 ∧ val = 0x0000#16 ∧ word = 0x0800000000#40)
     form (.encwsr 0xFFFF#16 0x0000#16) 0xFFFF#16 0x0000#16 0x04FFFF0000#40 = true ∧
     form .rotcw 0x6000#16 0x0001#16 0x0500000000#40 = true ∧
     form .rotccw 0x6000#16 0x0002#16 0x0600000000#40 = true ∧
     form (.setfreq 0xFFFF#16) 0x5000#16 0xFFFF#16 0x070000FFFF#40 = true ∧
     form .stop 0x5000#16 0x0000#16 0x0800000000#40 = true) ∧
    (configured 0x01#8).idValid = true ∧ State.reset.idValid = false := by decide

/-- What `SETID 1` and `ROTCW`'s general form leave after reset, with the eight bytes built. -/
theorem witness_EchoOfEncodedFrameIsAck :
    1 ≤ (0x01#8).toNat ∧ (0xF7#8).toNat ≤ 247 ∧
    ((after (execAll [.setid 0x0001#16, .encwsr 0x6000#16 0x0001#16] State.reset)).map fun u =>
      echoV11.length == 8 && (List.range 8).all fun a => Memory.read u.tx a == echoV11[a]?) = some true := by
  decide +kernel

theorem witness_RxpushStoresAtRxlenOrOverflows :
    State.reset.rxLen.val < 8 ∧ (State.holding State.reset (echoV11.take 7)).rxLen.val < 8 ∧
    (State.holding State.reset echoV11).rxLen.val = 8 := by decide

/-- A buffer that holds its bytes, as `RXNEED` and `DEC` are stated of it. -/
theorem witness_RxneedIsToldByBit7 : excV26.length = (State.holding State.reset excV26).rxLen.val ∧
    ∀ a, a < excV26.length → Memory.read (State.holding State.reset excV26).rx a = excV26[a]? := by decide

theorem witness_RxcompleteByLength :
    (State.holding State.reset (echoV11.take 4)).rxLen.val ≤ 4 ∧
    (5 ≤ (State.holding State.reset excV26).rxLen.val ∧ (State.holding State.reset excV26).rxLen.val ≤ 7) ∧
    (5 ≤ (State.holding State.reset (echoV11.take 7)).rxLen.val ∧
      (State.holding State.reset (echoV11.take 7)).rxLen.val ≤ 7) ∧
    (State.holding State.reset echoV11).rxLen.val = 8 := by decide

theorem witness_DecodeResponseTestsInOrder :
    ([] : List Byte).length < 5 ∧ (echoV11.take 4).length < 5 := by decide

theorem witness_DecClassifiesReceivedBytes :
    (State.holding (configured 0x01#8) excV26).idValid = true ∧
    (State.holding (configured 0x01#8) excV26).rxOvf = false ∧
    excV26.length = (State.holding (configured 0x01#8) excV26).rxLen.val ∧
    (∀ a, a < excV26.length → Memory.read (State.holding (configured 0x01#8) excV26).rx a = excV26[a]?) ∧
    State.reset.idValid = false ∧ (overflowed.idValid = true ∧ overflowed.rxOvf = true) := by decide

theorem witness_DecodeOperationsComputeDecodeResponse :
    1 ≤ (0x01#8).toNat ∧ (0x01#8).toNat ≤ 247 ∧ 1 ≤ (0xF7#8).toNat ∧ (0xF7#8).toNat ≤ 247 ∧
    ([] : List Byte).length ≤ 8 ∧ echoV11.length ≤ 8 := by decide

/-- V21: a response with other register and value bytes than the request's. -/
theorem witness_DecoderDoesNotCompareWithRequest :
    crc16 [0x01#8, 0x06#8, 0x50#8, 0x00#8, 0x12#8, 0x34#8] = 0xBD#8 ++ 0x95#8 ∧
    exec (.dec 0x06#8) State.reset = .next { State.reset with status := .notConfigured } := ⟨by decide +kernel, rfl⟩

theorem witness_OneChangedByteIsChecksumMismatch :
    (0 < 8 ∧ (encodeWSR 0x01#8 0x6000#16 0x0001#16)[0]? ≠ some 0x00#8) ∧
    (7 < 8 ∧ (encodeWSR 0x01#8 0x6000#16 0x0001#16)[7]? ≠ some 0x0B#8) := by decide +kernel

theorem witness_EfcWithBit7NeverGivesSlaveException : (0x86#8).getLsbD 7 = true := by decide

/-- V26 and V27d. -/
theorem witness_ExceptionCodeIsVerbatim :
    (let s := State.holding (configured 0x01#8) excV26
     s.idValid = true ∧ s.rxOvf = false ∧ s.rxLen.val = 5 ∧ Memory.read s.rx 0 = some s.slaveId ∧
     Memory.read s.rx 1 = some 0x86#8 ∧ Memory.read s.rx 2 = some 0x02#8 ∧
     Memory.read s.rx 3 = some 0xC3#8 ∧ Memory.read s.rx 4 = some 0xA1#8 ∧
     crc16 [s.slaveId, 0x86#8, 0x02#8] = 0xA1#8 ++ 0xC3#8) ∧
    crc16 [0x01#8, 0x86#8, 0xFF#8] = 0x20#8 ++ 0x02#8 := by decide +kernel

theorem witness_WsrFrameIsStoredAndJudged :
    (configured 0x01#8).idValid = true ∧ State.reset.idValid = false ∧ (7 : Nat) < 8 ∧ 8 ≤ 8 := by decide

theorem witness_ExceptionFrameIsStoredAndJudged :
    (configured 0x01#8).idValid = true ∧ State.reset.idValid = false ∧ (4 : Nat) < 5 ∧ 5 ≤ 5 := by decide

theorem witness_AnyResponseIsReceived :
    (facing (.present (.response echoV11))).port = .present (.response echoV11) :: [] ∧
    (echoV11.take 7).length < need (echoV11.take 7) ∧ ([] : List Byte).length < need [] ∧
    need echoV11 ≤ echoV11.length ∧ need excV26 ≤ excV26.length ∧
    (configured 0x01#8).idValid = true ∧ State.reset.idValid = false := by decide

theorem witness_OperationsLeaveListedOutcomes : ∃ t, exec (.dec 0x06#8) overflowed = .next t := ⟨_, rfl⟩

/-- One operation for each clause; for `DEC`, each of the three cases. -/
theorem witness_OnlyListedOperationsWriteCrc :
    (∃ t, exec .rxclr overflowed = .next t ∧ Instr.rxclr.isCrc = false ∧ Instr.rxclr.isEncode = false ∧
      Instr.rxclr.isDec = false ∧ Instr.rxclr.isFrame = false) ∧
    (∃ t, exec .rotcw State.reset = .next t ∧ Instr.rotcw.isEncode = true ∧ State.reset.idValid = false) ∧
    (∃ t, exec (.dec 0x06#8) State.reset = .next t ∧ State.reset.idValid = false) ∧
    (∃ t, exec (.dec 0x06#8) overflowed = .next t ∧ overflowed.rxOvf = true) ∧
    ∃ t, exec (.dec 0x06#8) (State.holding (configured 0x01#8) (echoV11.take 4)) = .next t ∧
      (State.holding (configured 0x01#8) (echoV11.take 4)).rxLen.val < 5 :=
  ⟨⟨_, rfl, rfl, rfl, rfl, rfl⟩, ⟨_, rfl, rfl, rfl⟩, ⟨_, rfl, rfl⟩, ⟨_, rfl, rfl⟩, ⟨_, rfl, by decide⟩⟩

theorem witness_OnlyAcceptedSetidWritesSlaveId :
    (∃ t, exec .rotcw State.reset = .next t ∧ Instr.rotcw.isSetid = false) ∧
    ∃ t, exec (.setid 0x00F8#16) State.reset = .next t ∧ t.status = .idRejected :=
  ⟨⟨_, rfl, rfl⟩, ⟨_, rfl, rfl⟩⟩

theorem witness_OnlyAcceptedEncodeWritesTransmitSide :
    (∃ t, exec (.setid 0x0002#16) builtV11 = .next t ∧ (Instr.setid 0x0002#16).isEncode = false) ∧
    ∃ t, exec .rotcw State.reset = .next t ∧ State.reset.idValid = false :=
  ⟨⟨_, rfl, rfl⟩, ⟨_, rfl, rfl⟩⟩

theorem witness_OnlyListedOperationsWriteReceiveSide :
    (∃ t, exec .rotcw overflowed = .next t ∧ Instr.rotcw.isPush = false ∧ Instr.rotcw.isFrame = false ∧
      Instr.rotcw ≠ .rxclr) ∧
    ∃ t, exec (.rxpush 0xAA#8) overflowed = .next t ∧ (Instr.rxpush 0xAA#8).isPush = true ∧
      overflowed.rxLen = 8 :=
  ⟨⟨_, rfl, rfl, rfl, by decide⟩, ⟨_, rfl, rfl, rfl⟩⟩

theorem witness_OnlyExecutedDecWritesExcode :
    (∃ t, exec .rotcw overflowed = .next t ∧ Instr.rotcw.isDec = false ∧ Instr.rotcw.isFrame = false) ∧
    (∃ t, exec (.dec 0x06#8) State.reset = .next t ∧ State.reset.idValid = false) ∧
    ∃ t, exec (.dec 0x06#8) overflowed = .next t ∧ overflowed.rxOvf = true :=
  ⟨⟨_, rfl, rfl, rfl⟩, ⟨_, rfl, rfl⟩, ⟨_, rfl, rfl⟩⟩

theorem witness_OperationsLeaveHostSideAlone : ∃ t, exec .stop overflowed = .next t := ⟨_, rfl⟩

theorem witness_OverflowMarkLifetime :
    (∃ t, exec (.rxpush 0xAA#8) (State.holding State.reset echoV11) = .next t ∧
      (State.holding State.reset echoV11).rxOvf = false) ∧
    ∃ t, exec .rxclr overflowed = .next t ∧ overflowed.rxOvf = true :=
  ⟨⟨_, rfl, rfl⟩, ⟨_, rfl, rfl⟩⟩

theorem witness_ConfiguredAndBuiltUntilReset :
    ∃ t, step { builtV11 with port := [.reset] } = .next t ∧ builtV11.idValid = true ∧ t.idValid = false ∧
      builtV11.txValid = true ∧ t.txValid = false := ⟨_, rfl, rfl, rfl, rfl, rfl⟩

/-- A state that meets the invariant with an id set, and one step from it. -/
theorem witness_EveryStepKeepsInv_and_MemoryCanonical :
    State.Inv (facing (.present (.command 0x0500000000#40))) ∧
    (facing (.present (.command 0x0500000000#40))).memoryCanonical ∧
    ∃ t, step (facing (.present (.command 0x0500000000#40))) = .next t :=
  ⟨{ txWf := rfl, rxWf := rfl, idLegal := fun _ => ⟨by decide, by decide⟩, idUnset := fun h => (nomatch h),
     txFrame := fun h => (nomatch h), txEmpty := fun _ => rfl,
     rxReceived := fun a h => absurd h (Nat.not_lt_zero a), ovfFull := fun h => (nomatch h) },
   ⟨rfl, rfl⟩, ⟨_, rfl⟩⟩

end Sys2Proof.Tests
end

/-! PROOFS. The state of the block (10_state.md): what every operation leaves alone, the invariant, the views, the outcome
codes, and who writes which element. -/

namespace Sys2Proof.Machine

/-! ## Pushes into an empty buffer -/

/-- Bytes that fit an empty buffer are put there one after the other, and none overflows (R91). -/
theorem State.pushAll_clear {bytes : List Byte} (h : bytes.length ≤ 8) (s : State) :
    s.clear.pushAll bytes = { s.clear with
      rx := Memory.writeFrom s.rx 0 bytes, rxLen := Fin.ofNat 9 bytes.length } := by
  have hempty : s.clear.rxLen.val = 0 := rfl
  rw [State.pushAll_eq bytes s.clear rfl (by omega), hempty, Nat.zero_add]
  rfl

theorem State.rxBytes_pushAll_clear {bytes : List Byte} (h : bytes.length ≤ 8) (s : State) :
    (s.clear.pushAll bytes).rxBytes = bytes := by
  have hempty : s.clear.rxLen.val = 0 := rfl
  simpa using State.rxBytes_pushAll bytes s.clear (by omega)

theorem State.rxOvf_pushAll_clear {bytes : List Byte} (h : bytes.length ≤ 8) (s : State) :
    (s.clear.pushAll bytes).rxOvf = false := by
  rw [State.pushAll_clear h]
  rfl

theorem State.slaveId_pushAll_clear {bytes : List Byte} (h : bytes.length ≤ 8) (s : State) :
    (s.clear.pushAll bytes).slaveId = s.slaveId := by
  rw [State.pushAll_clear h]
  rfl

/-! ## What each shared operation leaves alone (R24) -/

@[simp] theorem State.configure_frame (id : Half) (s : State) :
    (s.configure id).crc = s.crc ∧ (s.configure id).tx = s.tx ∧ (s.configure id).txValid = s.txValid ∧
      (s.configure id).rx = s.rx ∧ (s.configure id).rxLen = s.rxLen ∧
      (s.configure id).rxOvf = s.rxOvf ∧ (s.configure id).excode = s.excode := by
  rcases s.configure_cases id with ⟨_, _, h⟩ | ⟨_, h⟩ <;> simp [h]

@[simp] theorem State.build_frame (addr val : Half) (s : State) :
    (s.build addr val).slaveId = s.slaveId ∧ (s.build addr val).idValid = s.idValid ∧
      (s.build addr val).rx = s.rx ∧ (s.build addr val).rxLen = s.rxLen ∧
      (s.build addr val).rxOvf = s.rxOvf ∧ (s.build addr val).excode = s.excode := by
  rcases s.build_cases addr val with ⟨_, h⟩ | ⟨_, h⟩ <;> simp [h]

@[simp] theorem State.clear_frame (s : State) :
    s.clear.crc = s.crc ∧ s.clear.slaveId = s.slaveId ∧ s.clear.idValid = s.idValid ∧
      s.clear.tx = s.tx ∧ s.clear.txValid = s.txValid ∧ s.clear.rx = s.rx ∧ s.clear.excode = s.excode := by
  simp [State.clear]

@[simp] theorem State.push_frame (b : Byte) (s : State) :
    (s.push b).crc = s.crc ∧ (s.push b).slaveId = s.slaveId ∧ (s.push b).idValid = s.idValid ∧
      (s.push b).tx = s.tx ∧ (s.push b).txValid = s.txValid ∧ (s.push b).excode = s.excode := by
  rcases s.push_cases b with ⟨_, h⟩ | ⟨_, h⟩ <;> simp [h]

@[simp] theorem State.judge_frame (efc : Byte) (s : State) :
    (s.judge efc).slaveId = s.slaveId ∧ (s.judge efc).idValid = s.idValid ∧ (s.judge efc).tx = s.tx ∧
      (s.judge efc).txValid = s.txValid ∧ (s.judge efc).rx = s.rx ∧ (s.judge efc).rxLen = s.rxLen ∧
      (s.judge efc).rxOvf = s.rxOvf := by
  rcases s.judge_cases efc with ⟨_, _, h⟩ | ⟨_, h⟩ | ⟨_, _, h⟩ <;> simp [h]

/-- The reception of a response is made of `RXCLR`, `RXPUSH` and `DEC`, and leaves alone what they do. -/
@[simp] theorem State.receive_frame (bytes : List Byte) (s : State) :
    (s.receive bytes).slaveId = s.slaveId ∧ (s.receive bytes).idValid = s.idValid ∧
      (s.receive bytes).tx = s.tx ∧ (s.receive bytes).txValid = s.txValid :=
  State.receive_keeps
    (P := fun t => t.slaveId = s.slaveId ∧ t.idValid = s.idValid ∧ t.tx = s.tx ∧ t.txValid = s.txValid)
    (fun _ h => by simpa using h) (fun _ _ h => by simpa using h) (fun _ _ h => by simpa using h)
    bytes s ⟨rfl, rfl, rfl, rfl⟩

/-- The reception of a response begins with `RXCLR` and pushes at most eight bytes. -/
@[simp] theorem State.receive_rxOvf (bytes : List Byte) (s : State) : (s.receive bytes).rxOvf = false := by
  have hneed : need bytes ≤ 8 := by rcases need_eq bytes with h | h <;> omega
  rw [State.receive_eq]
  split_ifs with hshort
  · exact State.rxOvf_pushAll_clear (by omega) s
  · have htake : (bytes.take (need bytes)).length ≤ 8 := by rw [List.length_take]; omega
    simpa using State.rxOvf_pushAll_clear htake s

theorem State.build_of_unset {s : State} (h : s.idValid = false) (addr val : Half) :
    s.build addr val = { s with status := .notConfigured } := by
  rcases s.build_cases addr val with ⟨hv, _⟩ | ⟨_, hb⟩
  · rw [h] at hv; cases hv
  · exact hb

theorem State.push_of_full {s : State} (h : s.rxLen = 8) (b : Byte) :
    s.push b = { s with rxOvf := true, status := .rxOverflow } := by
  rcases s.push_cases b with ⟨hroom, _⟩ | ⟨_, hp⟩
  · exact absurd h hroom
  · exact hp

/-- A push with room does not touch the overflow mark (R18). -/
theorem State.push_rxOvf_of_room {s : State} (h : s.rxLen ≠ 8) (b : Byte) :
    (s.push b).rxOvf = s.rxOvf := by
  rcases s.push_cases b with ⟨_, hp⟩ | ⟨hfull, _⟩
  · rw [hp]
  · exact absurd hfull h

/-- A refused `DEC` computes nothing and delivers no code (R95, R108). -/
theorem State.judge_of_refused {s : State} (h : s.idValid = false ∨ s.rxOvf = true) (efc : Byte) :
    (s.judge efc).crc = s.crc ∧ (s.judge efc).excode = s.excode := by
  rcases s.judge_cases efc with ⟨hv, ho, _⟩ | ⟨_, hj⟩ | ⟨_, _, hj⟩
  · simp [hv, ho] at h
  · simp [hj]
  · simp [hj]

/-- `DEC` on fewer than five bytes computes no CRC (R95). -/
theorem State.judge_crc_of_short {s : State} (h : s.rxLen.val < 5) (efc : Byte) :
    (s.judge efc).crc = s.crc := by
  have hcrc : s.recomputedCrc = s.crc := by
    rw [State.recomputedCrc, if_neg (by simpa [Config.excLen] using h)]
  rcases s.judge_cases efc with ⟨_, _, hj⟩ | ⟨_, hj⟩ | ⟨_, _, hj⟩ <;> simp [hj, hcrc]

/-! ## What each kind of instruction is not -/

theorem isCrc_excludes : ∀ {i : Instr}, i.isCrc = true →
    i.isEncode = false ∧ i.isPush = false ∧ i.isDec = false ∧ i.isFrame = false ∧ i ≠ .rxclr
  | .crcinit, _ => ⟨rfl, rfl, rfl, rfl, nofun⟩
  | .crcbyte _, _ => ⟨rfl, rfl, rfl, rfl, nofun⟩

theorem isEncode_excludes : ∀ {i : Instr}, i.isEncode = true →
    i.isPush = false ∧ i.isDec = false ∧ i.isFrame = false ∧ i ≠ .rxclr
  | .encwsr _ _, _ => ⟨rfl, rfl, rfl, nofun⟩
  | .rotcw, _ => ⟨rfl, rfl, rfl, nofun⟩
  | .rotccw, _ => ⟨rfl, rfl, rfl, nofun⟩
  | .setfreq _, _ => ⟨rfl, rfl, rfl, nofun⟩
  | .stop, _ => ⟨rfl, rfl, rfl, nofun⟩

theorem isFrame_excludes : ∀ {i : Instr}, i.isFrame = true →
    i.isEncode = false ∧ i.isPush = false ∧ i.isDec = false
  | .frameWsr _ _ _ _ _, _ => ⟨rfl, rfl, rfl⟩
  | .frameException _ _ _ _, _ => ⟨rfl, rfl, rfl⟩

/-- The seven forms of `exec_cases`, of a next state that is given. -/
theorem exec_next_cases {i : Instr} {s t : State} (h : exec i s = .next t) :
    (i.isCrc = true ∧ ∃ c, t = { s with crc := c, status := .ok }) ∨
    (∃ id, i = .setid id ∧ t = s.configure id) ∨
    (i.isEncode = true ∧ ∃ addr val, t = s.build addr val) ∨
    (i = .rxclr ∧ t = s.clear) ∨
    (∃ b, i = .rxpush b ∧ t = s.push b) ∨
    (∃ efc, i = .dec efc ∧ t = s.judge efc) ∨
    (i.isFrame = true ∧ ∃ bytes, t = s.receive bytes) := by
  obtain ⟨u, hu, hc⟩ := exec_cases i s
  rw [hu] at h
  cases h
  exact hc

/-! ## Each operation keeps the invariant -/

/-- An id that `SETID` accepts is a legal `SLAVEID` (R13, R77). -/
theorem idInRange_lo {id : Half} (h1 : 1 ≤ id.toNat) (h2 : id.toNat ≤ 247) : idInRange (lo id) := by
  have hlo : (lo id).toNat = id.toNat := by
    simp only [lo, BitVec.extractLsb'_toNat, Nat.shiftRight_zero]
    omega
  simp only [idInRange, hlo, Config.sidMin, Config.sidMax]
  exact ⟨h1, h2⟩

theorem State.Inv.configure {s : State} (h : s.Inv) (id : Half) : (s.configure id).Inv := by
  rcases s.configure_cases id with ⟨h1, h2, hc⟩ | ⟨_, hc⟩
  · rw [hc]
    exact { h with idLegal := fun _ => idInRange_lo h1 h2, idUnset := fun hv => nomatch hv }
  · rw [hc]
    exact { h with }

/-- An accepted encode operation fills `TXBUF` with a whole frame for the configured id (R76). -/
theorem State.Inv.build {s : State} (h : s.Inv) (addr val : Half) : (s.build addr val).Inv := by
  rcases s.build_cases addr val with ⟨hv, hb⟩ | ⟨_, hb⟩
  · have hread : ∀ a, a < 8 →
        Memory.read (Memory.writeFrom s.tx 0 (encodeWSR s.slaveId addr val)) a =
          (encodeWSR s.slaveId addr val)[a]? := fun a ha => by
      simpa using Memory.read_writeFrom_inside (encodeWSR s.slaveId addr val) s.tx 0 a (by simpa using ha)
    rw [hb]
    exact { h with
      txWf := Memory.wf_writeFrom _ _ _ (by simp [Config.bufCap]) h.txWf
      txFrame := fun _ => ⟨s.slaveId, addr, val, h.idLegal hv, hread⟩
      txEmpty := fun ht => nomatch ht }
  · rw [hb]
    exact { h with }

theorem State.Inv.clear {s : State} (h : s.Inv) : s.clear.Inv :=
  { h with
    rxReceived := fun a ha => absurd ha (Nat.not_lt_zero a)
    ovfFull := fun ho => nomatch ho }

/-- A push with room writes the byte at `RXLEN`, the one address by which the received part grows (R91). -/
theorem State.Inv.push {s : State} (h : s.Inv) (b : Byte) : (s.push b).Inv := by
  rcases s.push_cases b with ⟨hroom, hp⟩ | ⟨hfull, hp⟩
  · have hlt := Fin.lt_eight_of_ne hroom
    have hreceived : ∀ a, a < (s.rxLen + 1).val →
        (Memory.read (Memory.write s.rx s.rxLen.val b) a).isSome = true := by
      intro a ha
      rw [Fin.val_succ_of_ne_eight hroom] at ha
      by_cases hlast : a = s.rxLen.val
      · rw [hlast, Memory.read_write_same, Option.isSome_some]
      · rw [Memory.read_write_other _ _ hlast]
        exact h.rxReceived a (by omega)
    rw [hp]
    exact { h with
      rxWf := Memory.wf_write b hlt h.rxWf
      rxReceived := hreceived
      ovfFull := fun ho => absurd (h.ovfFull ho) hroom }
  · rw [hp]
    exact { h with ovfFull := fun _ => hfull }

theorem State.Inv.judge {s : State} (h : s.Inv) (efc : Byte) : (s.judge efc).Inv := by
  rcases s.judge_cases efc with ⟨_, _, hj⟩ | ⟨_, hj⟩ | ⟨_, _, hj⟩ <;> rw [hj] <;> exact { h with }

theorem State.Inv.reset : State.reset.Inv where
  txWf := rfl
  rxWf := rfl
  idLegal hv := nomatch hv
  idUnset _ := rfl
  txFrame hv := nomatch hv
  txEmpty _ := rfl
  rxReceived a ha := absurd ha (Nat.not_lt_zero a)
  ovfFull ho := nomatch ho

/-- Settles O54: each shared operation keeps `State.Inv`, and a step is made of them. -/
theorem everyStepKeepsInv : Obligations.EveryStepKeepsInv := by
  unfold Obligations.EveryStepKeepsInv
  intro s t hs hstep
  exact step_keeps (P := State.Inv) (hhost := fun _ _ _ _ h => { h with }) (hreset := .reset)
    (hstatus := fun _ _ h => { h with }) (hcrc := fun _ _ h => { h with })
    (hid := fun id _ h => h.configure id) (hbuild := fun addr val _ h => h.build addr val)
    (hclear := fun _ h => h.clear) (hpush := fun b _ h => h.push b)
    (hjudge := fun efc _ h => h.judge efc) hstep hs

/-! ## The views, field by field (R22)

A view is the concatenation of its fields, so a part of it is a part of the field that stands there. -/

theorem State.viewCfg_fields (s : State) :
    s.viewCfg.extractLsb' 0 8 = s.slaveId ∧ s.viewCfg.getLsbD 8 = s.idValid ∧
      s.viewCfg.extractLsb' 9 7 = 0#7 := by
  simp only [State.viewCfg, BitVec.extractLsb'_append_eq_ite, BitVec.getLsbD_append]
  simp

theorem State.viewStat_fields (s : State) :
    s.viewStat.extractLsb' 0 4 = s.status.code ∧ s.viewStat.extractLsb' 4 4 = 0#4 ∧
      s.viewStat.extractLsb' 8 8 = s.excode := by
  simp only [State.viewStat, BitVec.extractLsb'_append_eq_ite]
  simp

theorem State.txLen_of_valid {s : State} (h : s.txValid = true) : s.txLen = 8 := by
  rw [State.txLen, if_pos h, Config.reqLen]

theorem State.txLen_of_invalid {s : State} (h : s.txValid = false) : s.txLen = 0 := by
  rw [State.txLen, if_neg (by simp [h])]

/-- `RXNEED` fits the four bits that view 3 gives it. -/
theorem State.rxNeed_mod (s : State) : s.rxNeed % 16 = s.rxNeed := by
  rcases need_eq s.rxBytes with h | h <;> rw [State.rxNeed, h]

/-- `RXLEN` fits the four bits that view 3 gives it. -/
theorem State.rxLen_mod (s : State) : s.rxLen.val % 16 = s.rxLen.val :=
  Nat.mod_eq_of_lt (by omega)

/-- `TXLEN` fits the four bits that view 4 gives it. -/
theorem State.txLen_mod (s : State) : s.txLen % 16 = s.txLen := by
  cases h : s.txValid with
  | false => rw [State.txLen_of_invalid h]
  | true => rw [State.txLen_of_valid h]

theorem State.viewRxstat_fields (s : State) :
    (s.viewRxstat.extractLsb' 0 4).toNat = s.rxLen.val ∧ s.viewRxstat.getLsbD 4 = s.rxOvf ∧
      s.viewRxstat.getLsbD 5 = s.rxComplete ∧ s.viewRxstat.extractLsb' 6 2 = 0#2 ∧
      (s.viewRxstat.extractLsb' 8 4).toNat = s.rxNeed ∧ s.viewRxstat.extractLsb' 12 4 = 0#4 := by
  simp only [State.viewRxstat, BitVec.extractLsb'_append_eq_ite, BitVec.getLsbD_append]
  simp [s.rxNeed_mod, s.rxLen_mod]

theorem State.viewTxstat_fields (s : State) :
    s.viewTxstat.getLsbD 0 = s.txValid ∧ s.viewTxstat.extractLsb' 1 3 = 0#3 ∧
      (s.viewTxstat.extractLsb' 4 4).toNat = s.txLen ∧ s.viewTxstat.extractLsb' 8 8 = 0#8 := by
  simp only [State.viewTxstat, BitVec.extractLsb'_append_eq_ite, BitVec.getLsbD_append]
  simp [s.txLen_mod]

/-- No view is numbered 5 or above (U3). -/
theorem State.view_of_five_le {n : Nat} (h : 5 ≤ n) (s : State) : s.view n = none := by
  match n, h with
  | _ + 5, _ => rfl

/-- A read of a view that exists is answered with its content (R36). -/
theorem step_of_read_view {s : State} {n : Nat} {v : Half} {rest : List HostEvent}
    (hport : s.port = .read (.view n) :: rest) (hview : s.view n = some v) :
    step s = .next (s.answer rest v) := by
  simp only [step, hport, serve, serveRead, hview]

/-- Settles O15: the fields of each view, the length of a built frame, and the answer to a read. -/
theorem viewsShowListedFields : Obligations.ViewsShowListedFields := by
  unfold Obligations.ViewsShowListedFields
  intro s
  exact ⟨rfl, ⟨_, rfl, s.viewCfg_fields⟩, ⟨_, rfl, s.viewStat_fields⟩, ⟨_, rfl, s.viewRxstat_fields⟩,
    ⟨_, rfl, s.viewTxstat_fields⟩, State.txLen_of_valid, State.txLen_of_invalid,
    fun _ h => s.view_of_five_le h, fun _ _ hview _ hport => step_of_read_view hport hview⟩

/-- Settles O16: the table of R20, line by line. -/
theorem statusCodesAreThoseListed : Obligations.StatusCodesAreThoseListed := by
  unfold Obligations.StatusCodesAreThoseListed
  exact ⟨rfl, rfl, rfl, rfl, rfl, rfl, rfl, rfl, rfl, rfl, rfl⟩

/-! ## What each instruction can leave in `STATUS` (R20, R106, R109) -/

theorem State.configure_status (id : Half) (s : State) :
    (s.configure id).status = .ok ∨ (s.configure id).status = .idRejected := by
  rcases s.configure_cases id with ⟨_, _, h⟩ | ⟨_, h⟩
  · exact .inl (by rw [h])
  · exact .inr (by rw [h])

theorem State.build_status (addr val : Half) (s : State) :
    (s.build addr val).status = .ok ∨ (s.build addr val).status = .notConfigured := by
  rcases s.build_cases addr val with ⟨_, h⟩ | ⟨_, h⟩
  · exact .inl (by rw [h])
  · exact .inr (by rw [h])

theorem State.push_status (b : Byte) (s : State) :
    (s.push b).status = .ok ∨ (s.push b).status = .rxOverflow := by
  rcases s.push_cases b with ⟨_, h⟩ | ⟨_, h⟩
  · exact .inl (by rw [h])
  · exact .inr (by rw [h])

/-- `DEC` gives `decodeResponse`'s outcome, or one of its two refusals. -/
theorem State.judge_status (efc : Byte) (s : State) :
    (s.judge efc).status = (decodeResponse s.rxBytes s.slaveId efc).1 ∨
      (s.judge efc).status = .notConfigured ∨ s.rxOvf = true ∧ (s.judge efc).status = .rxOverflow := by
  rcases s.judge_cases efc with ⟨_, _, h⟩ | ⟨_, h⟩ | ⟨_, hovf, h⟩
  · exact .inl (by rw [h])
  · exact .inr (.inl (by rw [h]))
  · exact .inr (.inr ⟨hovf, by rw [h]⟩)

/-- A response of exactly the bytes its byte 1 asks for is judged whole, with no overflow to refuse it. -/
theorem State.receive_status_of_whole {bytes : List Byte} (h : bytes.length = need bytes) (s : State) :
    (s.receive bytes).status = (decodeResponse bytes s.slaveId Config.fcWsr).1 ∨
      (s.receive bytes).status = .notConfigured := by
  have hfit : bytes.length ≤ 8 := by rcases need_eq bytes with hn | hn <;> omega
  have hheld := State.rxBytes_pushAll_clear hfit s
  have hid := State.slaveId_pushAll_clear hfit s
  have hovf := State.rxOvf_pushAll_clear hfit s
  rw [State.receive_eq, if_neg (by omega), ← h, List.take_length]
  rcases (s.clear.pushAll bytes).judge_status Config.fcWsr with hj | hj | ⟨hset, _⟩
  · exact .inl (by rw [hj, hheld, hid])
  · exact .inr hj
  · rw [hovf] at hset; cases hset

/-- Five bytes or more with the expected function code: the outcomes left by the tests of R94. -/
theorem decodeResponse_of_expected {bs : List Byte} {efc : Byte} (hlen : 5 ≤ bs.length)
    (hfc : bs.getD 1 0 = efc) (esid : Byte) :
    (decodeResponse bs esid efc).1 ∈ [Status.ack, .checksumMismatch, .unexpectedSlave] := by
  rw [decodeResponse, if_neg (by simpa [Config.excLen] using hlen), if_pos hfc]
  split_ifs <;> simp

/-- The same with the function code that marks an exception response. -/
theorem decodeResponse_of_exception {bs : List Byte} {efc : Byte} (hlen : 5 ≤ bs.length)
    (hne : bs.getD 1 0 ≠ efc) (hfc : bs.getD 1 0 = efc ||| Config.exceptionBit) (esid : Byte) :
    (decodeResponse bs esid efc).1 ∈ [Status.slaveException, .checksumMismatch, .unexpectedSlave] := by
  rw [decodeResponse, if_neg (by simpa [Config.excLen] using hlen), if_neg hne, if_pos hfc]
  split_ifs <;> simp

/-- The outcome of every instruction is one of those listed for it. -/
theorem exec_status_mem (i : Instr) (s : State) : ∃ t, exec i s = .next t ∧ t.status ∈ i.outcomes := by
  have hencode (addr val : Half) : (s.build addr val).status ∈ [Status.ok, .notConfigured] := by
    simpa using s.build_status addr val
  cases i with
  | crcinit => exact ⟨_, exec_crcinit s, List.mem_singleton_self _⟩
  | crcbyte b => exact ⟨_, exec_crcbyte b s, List.mem_singleton_self _⟩
  | setid id => exact ⟨_, exec_setid id s, by simpa [Instr.outcomes] using s.configure_status id⟩
  | encwsr addr val => exact ⟨_, exec_encwsr addr val s, hencode addr val⟩
  | rotcw => exact ⟨_, exec_rotcw s, hencode _ _⟩
  | rotccw => exact ⟨_, exec_rotccw s, hencode _ _⟩
  | setfreq val => exact ⟨_, exec_setfreq val s, hencode _ val⟩
  | stop => exact ⟨_, exec_stop s, hencode _ _⟩
  | rxclr => exact ⟨_, exec_rxclr s, List.mem_singleton_self _⟩
  | rxpush b => exact ⟨_, exec_rxpush b s, by simpa [Instr.outcomes] using s.push_status b⟩
  | dec efc =>
    refine ⟨_, exec_dec efc s, ?_⟩
    rcases s.judge_status efc with h | h | ⟨_, h⟩
    · rcases decodeResponse_cases s.rxBytes s.slaveId efc with hd | hd | hd | hd | hd <;>
        simp [h, hd, Instr.outcomes]
    · simp [h, Instr.outcomes]
    · simp [h, Instr.outcomes]
  | frameWsr sid addr val cl ch =>
    refine ⟨_, exec_frameWsr sid addr val cl ch s, ?_⟩
    have hd := decodeResponse_of_expected (bs := wsrPayload sid addr val ++ [cl, ch]) (efc := Config.fcWsr)
      (by simp [wsrPayload]) rfl s.slaveId
    rcases State.receive_status_of_whole (bytes := wsrPayload sid addr val ++ [cl, ch]) rfl s with h | h
    · rw [h]
      exact List.mem_append_left [Status.notConfigured] hd
    · simp [h, Instr.outcomes]
  | frameException sid code cl ch =>
    refine ⟨_, exec_frameException sid code cl ch s, ?_⟩
    have hd := decodeResponse_of_exception (bs := exceptionPayload sid code ++ [cl, ch])
      (efc := Config.fcWsr) (by simp [exceptionPayload])
      (show Config.fcWsr ||| Config.exceptionBit ≠ Config.fcWsr by decide) rfl s.slaveId
    rcases State.receive_status_of_whole (bytes := exceptionPayload sid code ++ [cl, ch]) rfl s with h | h
    · rw [h]
      exact List.mem_append_left [Status.notConfigured] hd
    · simp [h, Instr.outcomes]

/-- Settles O44: an instruction answers one next state, and its outcome is listed. -/
theorem operationsLeaveListedOutcomes : Obligations.OperationsLeaveListedOutcomes := by
  unfold Obligations.OperationsLeaveListedOutcomes
  intro i s t h
  obtain ⟨u, hu, hmem⟩ := exec_status_mem i s
  rw [hu] at h
  cases h
  exact hmem

/-! ## Who writes which element (R24) -/

/-- Settles O45: by the form of the instruction; the crux is a `DEC` that is refused or finds a short buffer. -/
theorem onlyListedOperationsWriteCrc : Obligations.OnlyListedOperationsWriteCrc := by
  unfold Obligations.OnlyListedOperationsWriteCrc
  intro i s t h
  rcases exec_next_cases h with ⟨hk, c, rfl⟩ | ⟨id, rfl, rfl⟩ | ⟨hk, addr, val, rfl⟩ | ⟨rfl, rfl⟩ |
    ⟨b, rfl, rfl⟩ | ⟨efc, rfl, rfl⟩ | ⟨hk, bytes, rfl⟩
  · obtain ⟨hencode, _, hdec, _, _⟩ := isCrc_excludes hk
    simp [hk, hencode, hdec]
  · simp
  · obtain ⟨_, hdec, _, _⟩ := isEncode_excludes hk
    refine ⟨by simp [hk], fun _ hunset => ?_, by simp [hdec]⟩
    rw [State.build_of_unset hunset]
  · simp
  · simp
  · refine ⟨by simp [Instr.isDec], by simp [Instr.isEncode], ?_⟩
    rintro - (hunset | hovf | hshort)
    · exact (State.judge_of_refused (.inl hunset) efc).1
    · exact (State.judge_of_refused (.inr hovf) efc).1
    · exact State.judge_crc_of_short hshort efc
  · obtain ⟨hencode, _, hdec⟩ := isFrame_excludes hk
    simp [hk, hencode, hdec]

/-- Settles O46: only `SETID` touches the slave id, and a rejected one does not. -/
theorem onlyAcceptedSetidWritesSlaveId : Obligations.OnlyAcceptedSetidWritesSlaveId := by
  unfold Obligations.OnlyAcceptedSetidWritesSlaveId
  intro i s t h hcond
  rcases exec_next_cases h with ⟨_, c, rfl⟩ | ⟨id, rfl, rfl⟩ | ⟨_, addr, val, rfl⟩ | ⟨_, rfl⟩ |
    ⟨b, _, rfl⟩ | ⟨efc, _, rfl⟩ | ⟨_, bytes, rfl⟩
  · simp
  · rcases s.configure_cases id with ⟨_, _, hc⟩ | ⟨_, hc⟩
    · simp [hc, Instr.isSetid] at hcond
    · simp [hc]
  · simp
  · simp
  · simp
  · simp
  · simp

/-- Settles O47: only an encode operation touches the transmit side, and an unconfigured one does not. -/
theorem onlyAcceptedEncodeWritesTransmitSide : Obligations.OnlyAcceptedEncodeWritesTransmitSide := by
  unfold Obligations.OnlyAcceptedEncodeWritesTransmitSide
  intro i s t h hcond
  rcases exec_next_cases h with ⟨_, c, rfl⟩ | ⟨id, _, rfl⟩ | ⟨hk, addr, val, rfl⟩ | ⟨_, rfl⟩ |
    ⟨b, _, rfl⟩ | ⟨efc, _, rfl⟩ | ⟨_, bytes, rfl⟩
  · simp
  · simp
  · have hunset : s.idValid = false := by simpa [hk] using hcond
    rw [State.build_of_unset hunset]
    exact ⟨rfl, rfl⟩
  · simp
  · simp
  · simp
  · simp

/-- Settles O48: a push on a full buffer writes neither element, and the other operations have no way to. -/
theorem onlyListedOperationsWriteReceiveSide : Obligations.OnlyListedOperationsWriteReceiveSide := by
  unfold Obligations.OnlyListedOperationsWriteReceiveSide
  intro i s t h
  rcases exec_next_cases h with ⟨_, c, rfl⟩ | ⟨id, _, rfl⟩ | ⟨_, addr, val, rfl⟩ | ⟨rfl, rfl⟩ |
    ⟨b, rfl, rfl⟩ | ⟨efc, _, rfl⟩ | ⟨hk, bytes, rfl⟩
  · simp
  · simp
  · simp
  · simp [Instr.isPush]
  · by_cases hfull : s.rxLen = 8
    · simp [State.push_of_full hfull]
    · simp [hfull, Instr.isPush]
  · simp
  · obtain ⟨_, hpush, _⟩ := isFrame_excludes hk
    simp [hk, hpush]

/-- Settles O49: of the operations that are no reception only `DEC` touches `EXCODE`, and a refused one does not. -/
theorem onlyExecutedDecWritesExcode : Obligations.OnlyExecutedDecWritesExcode := by
  unfold Obligations.OnlyExecutedDecWritesExcode
  intro i s t h hcond
  rcases exec_next_cases h with ⟨_, c, rfl⟩ | ⟨id, _, rfl⟩ | ⟨_, addr, val, rfl⟩ | ⟨_, rfl⟩ |
    ⟨b, _, rfl⟩ | ⟨efc, rfl, rfl⟩ | ⟨hk, bytes, rfl⟩
  · rfl
  · simp
  · simp
  · simp
  · simp
  · have hrefused : s.idValid = false ∨ s.rxOvf = true := by simpa [Instr.isDec] using hcond
    exact (State.judge_of_refused hrefused efc).2
  · obtain ⟨_, _, hdec⟩ := isFrame_excludes hk
    simp [hk, hdec] at hcond

/-- Settles O51: a push sets the mark exactly on a full buffer, `RXCLR` and a reception clear it, the others keep it. -/
theorem overflowMarkLifetime : Obligations.OverflowMarkLifetime := by
  unfold Obligations.OverflowMarkLifetime
  intro i s t h
  rcases exec_next_cases h with ⟨hk, c, rfl⟩ | ⟨id, rfl, rfl⟩ | ⟨hk, addr, val, rfl⟩ | ⟨rfl, rfl⟩ |
    ⟨b, rfl, rfl⟩ | ⟨efc, rfl, rfl⟩ | ⟨hk, bytes, rfl⟩
  · obtain ⟨_, hpush, _, hframe, hclr⟩ := isCrc_excludes hk
    simp +contextual [hpush, hframe, hclr]
  · simp +contextual [Instr.isPush, Instr.isFrame]
  · obtain ⟨hpush, _, hframe, hclr⟩ := isEncode_excludes hk
    simp +contextual [hpush, hframe, hclr]
  · simp [State.clear, Instr.isPush]
  · by_cases hfull : s.rxLen = 8
    · simp [State.push_of_full hfull, hfull, Instr.isPush, Instr.isFrame]
    · simp +contextual [State.push_rxOvf_of_room hfull, hfull, Instr.isFrame]
  · simp +contextual [Instr.isPush, Instr.isFrame]
  · obtain ⟨_, hpush, _⟩ := isFrame_excludes hk
    simp [hk, hpush]

/-! ## Only the reset event clears `IDVALID` and `TXVALID` (R14, R16) -/

/-- Neither flag is lost on the way from one state to the other. -/
def State.FlagsStay (s t : State) : Prop :=
  (s.idValid = true → t.idValid = true) ∧ (s.txValid = true → t.txValid = true)

theorem State.FlagsStay.configure (id : Half) (s : State) : s.FlagsStay (s.configure id) := by
  rcases s.configure_cases id with ⟨_, _, h⟩ | ⟨_, h⟩ <;> simp [State.FlagsStay, h]

theorem State.FlagsStay.build (addr val : Half) (s : State) : s.FlagsStay (s.build addr val) := by
  rcases s.build_cases addr val with ⟨_, h⟩ | ⟨_, h⟩ <;> simp [State.FlagsStay, h]

/-- No instruction clears a flag: `SETID` and the encode operations only set one, the others touch neither. -/
theorem exec_flagsStay {i : Instr} {s t : State} (h : exec i s = .next t) : s.FlagsStay t := by
  rcases exec_next_cases h with ⟨_, c, rfl⟩ | ⟨id, _, rfl⟩ | ⟨_, addr, val, rfl⟩ | ⟨_, rfl⟩ |
    ⟨b, _, rfl⟩ | ⟨efc, _, rfl⟩ | ⟨_, bytes, rfl⟩
  · exact ⟨id, id⟩
  · exact .configure id s
  · exact .build addr val s
  · simp [State.FlagsStay]
  · simp [State.FlagsStay]
  · simp [State.FlagsStay]
  · simp [State.FlagsStay]

theorem servePresented_flagsStay {p : Presented} {s t : State} (h : servePresented p s = .next t) :
    s.FlagsStay t := by
  obtain ⟨u, hu, hc⟩ := servePresented_cases p s
  rw [hu] at h
  cases h
  rcases hc with ⟨i, _, hi⟩ | ⟨cw, _, rfl⟩ | ⟨bytes, _, rfl⟩
  · exact exec_flagsStay hi
  · exact ⟨id, id⟩
  · simp [State.FlagsStay]

/-- A step loses a flag only where it serves the reset event. -/
theorem step_flagsStay_or_reset {s t : State} (h : step s = .next t) :
    s.FlagsStay t ∨ ∃ rest, s.port = .reset :: rest := by
  rcases step_cases h with ⟨_, rfl⟩ | ⟨p, rest, _, hp⟩ | ⟨r, rest, v, _, rfl⟩ | ⟨rest, hport, _⟩
  · exact .inl ⟨id, id⟩
  · exact .inl (servePresented_flagsStay (s := s.take rest) hp)
  · exact .inl ⟨id, id⟩
  · exact .inr ⟨rest, hport⟩

/-- Settles O52: where a flag is lost, the step cannot be one that keeps both. -/
theorem configuredAndBuiltUntilReset : Obligations.ConfiguredAndBuiltUntilReset := by
  unfold Obligations.ConfiguredAndBuiltUntilReset
  intro s t h
  rcases step_flagsStay_or_reset h with ⟨hid, htx⟩ | hreset
  · exact ⟨fun h1 h0 => by simp [hid h1] at h0, fun h1 h0 => by simp [htx h1] at h0⟩
  · exact ⟨fun _ _ => hreset, fun _ _ => hreset⟩

end Sys2Proof.Machine

/-! PROOFS. The memory (20_memory.md): what a read of a buffer byte gives, where the host's reads stop, that every step keeps
both buffers canonical, and that the host's side is the host's alone. -/

namespace Sys2Proof.Machine

/-! ## Each operation keeps both buffers canonical (R30) -/

/-- The canonical form looks at the two buffers only. -/
theorem State.memoryCanonical.congr {s t : State} (h : s.memoryCanonical) (htx : t.tx = s.tx)
    (hrx : t.rx = s.rx) : t.memoryCanonical := by
  rwa [State.memoryCanonical, htx, hrx]

/-- The eight bytes of a built frame fill addresses 0 to 7. -/
theorem State.memoryCanonical.build {s : State} (h : s.memoryCanonical) (addr val : Half) :
    (s.build addr val).memoryCanonical := by
  rcases s.build_cases addr val with ⟨_, hb⟩ | ⟨_, hb⟩
  · rw [hb]
    exact ⟨Memory.wf_writeFrom _ _ _ (by simp [Config.bufCap]) h.1, h.2⟩
  · rw [hb]
    exact h

/-- A push with room writes at `RXLEN`, which is then below 8; a refused one writes no byte (R91). -/
theorem State.memoryCanonical.push {s : State} (h : s.memoryCanonical) (b : Byte) :
    (s.push b).memoryCanonical := by
  rcases s.push_cases b with ⟨hroom, hp⟩ | ⟨_, hp⟩
  · rw [hp]
    exact ⟨h.1, Memory.wf_write b (Fin.lt_eight_of_ne hroom) h.2⟩
  · rw [hp]
    exact h

/-- Settles O55: only an encode operation and a push write a buffer, and both keep it canonical. -/
theorem everyStepKeepsMemoryCanonical : Obligations.EveryStepKeepsMemoryCanonical := by
  unfold Obligations.EveryStepKeepsMemoryCanonical
  intro s t hs hstep
  exact step_keeps (P := State.memoryCanonical) (hhost := fun _ _ _ _ h => h)
    (hreset := ⟨Memory.wf_nil, Memory.wf_nil⟩)
    (hstatus := fun _ _ h => h) (hcrc := fun _ _ h => h)
    (hid := fun _ _ h => h.congr (by simp) (by simp))
    (hbuild := fun addr val _ h => h.build addr val)
    (hclear := fun _ h => h.congr (by simp) (by simp)) (hpush := fun b _ h => h.push b)
    (hjudge := fun _ _ h => h.congr (by simp) (by simp)) hstep hs

/-! ## Host reads (R30, R31, R36) -/

/-- The views numbered 0 to 4 exist (R22). -/
theorem State.view_of_le_four {n : Nat} (h : n ≤ 4) (s : State) : ∃ v, s.view n = some v := by
  match n, h with
  | 0, _ => exact ⟨_, rfl⟩
  | 1, _ => exact ⟨_, rfl⟩
  | 2, _ => exact ⟨_, rfl⟩
  | 3, _ => exact ⟨_, rfl⟩
  | 4, _ => exact ⟨_, rfl⟩

/-- No address is 8 or above (R30, U3). -/
theorem State.readByte_of_eight_le {a : Nat} (h : 8 ≤ a) (space : Space) (s : State) :
    s.readByte space a = none :=
  if_neg (Nat.not_lt.mpr h)

theorem State.readByte_tx {a : Nat} (h : a ≤ 7) (s : State) :
    s.readByte .tx a = some (s.txByte a) :=
  if_pos (Nat.lt_succ_of_le h)

theorem State.readByte_rx {a : Nat} (h : a ≤ 7) (s : State) :
    s.readByte .rx a = some (s.rxByte a) :=
  if_pos (Nat.lt_succ_of_le h)

/-- The addresses 0 to 7 exist in both spaces (R30). -/
theorem State.readByte_of_le_seven {a : Nat} (h : a ≤ 7) (space : Space) (s : State) :
    ∃ b, s.readByte space a = some b := by
  cases space with
  | tx => exact ⟨_, s.readByte_tx h⟩
  | rx => exact ⟨_, s.readByte_rx h⟩

theorem State.txByte_of_written {s : State} {a : Nat} {b : Byte} (hvalid : s.txValid = true)
    (hread : Memory.read s.tx a = some b) : s.txByte a = b := by
  rw [State.txByte, if_pos hvalid, hread, Option.getD_some]

theorem State.txByte_of_invalid {s : State} (hvalid : s.txValid = false) (a : Nat) :
    s.txByte a = Config.freeByte .tx s.epoch a := by
  rw [State.txByte, if_neg (by simp [hvalid])]

theorem State.rxByte_of_written {s : State} {a : Nat} {b : Byte} (hlen : a < s.rxLen.val)
    (hread : Memory.read s.rx a = some b) : s.rxByte a = b := by
  rw [State.rxByte, if_pos hlen, hread, Option.getD_some]

theorem State.rxByte_of_rxLen_le {s : State} {a : Nat} (hlen : s.rxLen.val ≤ a) :
    s.rxByte a = Config.freeByte .rx s.epoch a := by
  rw [State.rxByte, if_neg (Nat.not_lt.mpr hlen)]

/-- What a view shows depends on the block's elements only, not on the events to come or the last answer (R36). -/
theorem State.view_withHost (s : State) (port : List HostEvent) (reply : Option Half) (n : Nat) :
    ({ s with port := port, reply := reply } : State).view n = s.view n := rfl

/-- What a byte reads as depends on the block's elements and the epoch only (R36, log 5). -/
theorem State.readByte_withHost (s : State) (port : List HostEvent) (reply : Option Half)
    (space : Space) (a : Nat) :
    ({ s with port := port, reply := reply } : State).readByte space a = s.readByte space a := rfl

/-- A read of a byte that exists is answered with it (R36). -/
theorem step_of_read_byte {s : State} {space : Space} {a : Nat} {b : Byte} {rest : List HostEvent}
    (hport : s.port = .read (.byte space a) :: rest) (hbyte : s.readByte space a = some b) :
    step s = .next (s.answer rest (b.setWidth 16)) := by
  simp only [step, hport, serve, serveRead, hbyte]

theorem step_of_no_view {s : State} {n : Nat} {rest : List HostEvent}
    (hport : s.port = .read (.view n) :: rest) (hview : s.view n = none) :
    step s = .refused (.noSuchView n) := by
  simp only [step, hport, serve, serveRead, hview]

theorem step_of_no_byte {s : State} {space : Space} {a : Nat} {rest : List HostEvent}
    (hport : s.port = .read (.byte space a) :: rest) (hbyte : s.readByte space a = none) :
    step s = .refused (.noSuchAddress space a) := by
  simp only [step, hport, serve, serveRead, hbyte]

/-- A byte read is answered in bits `[7:0]`, with zeros above (R31). -/
theorem zero_append_byte (b : Byte) : 0x00#8 ++ b = b.setWidth 16 :=
  (BitVec.setWidth_eq_append (by omega)).symm

/-- Settles O12: the value of the view or byte is the same whatever the port and the reply hold, and the step answers it. -/
theorem hostReadsChangeNothingAndRepeat : Obligations.HostReadsChangeNothingAndRepeat := by
  unfold Obligations.HostReadsChangeNothingAndRepeat
  rintro s r (⟨n, rfl, hn⟩ | ⟨space, a, rfl, ha⟩)
  · obtain ⟨v, hv⟩ := s.view_of_le_four hn
    exact ⟨v, fun _ _ => step_of_read_view rfl ((s.view_withHost _ _ n).trans hv)⟩
  · obtain ⟨b, hb⟩ := s.readByte_of_le_seven ha space
    exact ⟨b.setWidth 16, fun _ _ => step_of_read_byte rfl ((s.readByte_withHost _ _ space a).trans hb)⟩

/-- Settles O13: the byte by the state of its buffer, and the step's answer to a read of it. -/
theorem byteReadsGiveWrittenBytes : Obligations.ByteReadsGiveWrittenBytes := by
  unfold Obligations.ByteReadsGiveWrittenBytes
  intro s a ha
  refine ⟨fun b hvalid hread => ?_, fun hvalid => ?_, fun b hlen hread => ?_, fun hlen => ?_,
    fun space => ?_⟩
  · rw [s.readByte_tx ha, State.txByte_of_written hvalid hread]
  · rw [s.readByte_tx ha, State.txByte_of_invalid hvalid]
  · rw [s.readByte_rx ha, State.rxByte_of_written hlen hread]
  · rw [s.readByte_rx ha, State.rxByte_of_rxLen_le hlen]
  · obtain ⟨b, hb⟩ := s.readByte_of_le_seven ha space
    refine ⟨b, hb, fun rest hport => ?_⟩
    rw [zero_append_byte]
    exact step_of_read_byte hport hb

/-- Settles O14: such a view or byte has no value, and a step on a read without one is refused by name. -/
theorem readsOutsideInterfaceStop : Obligations.ReadsOutsideInterfaceStop := by
  unfold Obligations.ReadsOutsideInterfaceStop
  intro s rest
  exact ⟨fun n hn hport => step_of_no_view hport (s.view_of_five_le hn),
    fun space a ha hport => step_of_no_byte hport (s.readByte_of_eight_le ha space)⟩

/-! ## Instructions and the host's side (R37, R39) -/

/-- The two states agree on the host's side: what the host will do next, its latest answer, and the epoch. -/
def State.SameHostSide (s t : State) : Prop :=
  t.port = s.port ∧ t.reply = s.reply ∧ t.epoch = s.epoch

theorem State.SameHostSide.trans {s t u : State} (h : s.SameHostSide t) (h' : t.SameHostSide u) :
    s.SameHostSide u := by
  obtain ⟨hport, hreply, hepoch⟩ := h
  obtain ⟨hport', hreply', hepoch'⟩ := h'
  exact ⟨hport'.trans hport, hreply'.trans hreply, hepoch'.trans hepoch⟩

theorem State.configure_sameHostSide (id : Half) (s : State) : s.SameHostSide (s.configure id) := by
  rcases s.configure_cases id with ⟨_, _, h⟩ | ⟨_, h⟩ <;> rw [h] <;> exact ⟨rfl, rfl, rfl⟩

theorem State.build_sameHostSide (addr val : Half) (s : State) : s.SameHostSide (s.build addr val) := by
  rcases s.build_cases addr val with ⟨_, h⟩ | ⟨_, h⟩ <;> rw [h] <;> exact ⟨rfl, rfl, rfl⟩

theorem State.push_sameHostSide (b : Byte) (s : State) : s.SameHostSide (s.push b) := by
  rcases s.push_cases b with ⟨_, h⟩ | ⟨_, h⟩ <;> rw [h] <;> exact ⟨rfl, rfl, rfl⟩

theorem State.judge_sameHostSide (efc : Byte) (s : State) : s.SameHostSide (s.judge efc) := by
  rcases s.judge_cases efc with ⟨_, _, h⟩ | ⟨_, h⟩ | ⟨_, _, h⟩ <;> rw [h] <;> exact ⟨rfl, rfl, rfl⟩

/-- Settles O50: no shared operation touches the host's side, so no instruction does. -/
theorem operationsLeaveHostSideAlone : Obligations.OperationsLeaveHostSideAlone := by
  unfold Obligations.OperationsLeaveHostSideAlone
  intro i s t hexec
  exact exec_keeps (P := s.SameHostSide) (hcrc := fun _ _ h => h)
    (hid := fun id u h => h.trans (u.configure_sameHostSide id))
    (hbuild := fun addr val u h => h.trans (u.build_sameHostSide addr val))
    (hclear := fun _ h => h)
    (hpush := fun b u h => h.trans (u.push_sameHostSide b))
    (hjudge := fun efc u h => h.trans (u.judge_sameHostSide efc)) hexec ⟨rfl, rfl, rfl⟩

/-- A presentation is taken off the port and served in a new epoch. -/
theorem step_of_present {s : State} {p : Presented} {rest : List HostEvent}
    (hport : s.port = .present p :: rest) : step s = servePresented p (s.take rest) := by
  simp only [step, hport, serve]

theorem servePresented_of_decode {p : Presented} {i : Instr} (hdecode : decode p = .ok i) (s : State) :
    servePresented p s = exec i s := by
  simp only [servePresented, hdecode]

/-- Settles O6: the presentation is taken off the port, and what it decodes to runs. -/
theorem stepRunsDecodedInstr : Obligations.StepRunsDecodedInstr := by
  unfold Obligations.StepRunsDecodedInstr
  intro s p rest i hport hdecode
  calc step s = servePresented p (s.take rest) := step_of_present hport
    _ = exec i (s.take rest) := servePresented_of_decode hdecode _

end Sys2Proof.Machine

/-! PROOFS. The encodings (30_encoding.md): decoder and encoder agree, which words are legal and what an illegal one
does; and sequences of operations: the CRC generator, the reception of a response, and the two frames that arrive from
the link. -/

namespace Sys2Proof.Machine

/-! ## Decoding what the encoder writes (R46, R47, R53 to R55) -/

theorem decodeCommand_commandWord (op : Byte) (a b : Half) :
    decodeCommand (commandWord op a b) = decodeFields op.toNat a b := by
  rw [decodeCommand, fieldOp_commandWord, fieldA_commandWord, fieldB_commandWord]

@[simp] theorem noOperand_zero (i : Instr) : noOperand 0#16 0#16 i = .ok i := rfl

@[simp] theorem byteOperand_join (v : Byte) (i : Byte → Instr) :
    byteOperand 0#16 (join 0#8 v) i = .ok (i v) := by
  rw [byteOperand, if_pos ⟨rfl, hi_join 0#8 v⟩, lo_join]

@[simp] theorem halfOperand_zero (b : Half) (i : Half → Instr) : halfOperand 0#16 b i = .ok (i b) := rfl

theorem decodeFrame_wsr (sid : Byte) (addr val : Half) (cl ch : Byte) :
    decodeFrame (wsrPayload sid addr val ++ [cl, ch]) = .ok (.frameWsr sid addr val cl ch) := by
  simp [wsrPayload, decodeFrame, join_hi_lo]

theorem decodeFrame_exception (sid code cl ch : Byte) :
    decodeFrame (exceptionPayload sid code ++ [cl, ch]) = .ok (.frameException sid code cl ch) := by
  simp [exceptionPayload, decodeFrame]

/-- The decoder undoes the encoder: the fields of a word are read back, then the operand by its form. -/
theorem decode_encode (i : Instr) : decode (encode i) = .ok i := by
  cases i with
  | crcinit => exact decodeCommand_commandWord _ _ _
  | crcbyte b => exact (decodeCommand_commandWord _ _ _).trans (byteOperand_join b .crcbyte)
  | setid id => exact (decodeCommand_commandWord _ _ _).trans (halfOperand_zero id .setid)
  | encwsr addr val => exact decodeCommand_commandWord _ _ _
  | rotcw => exact decodeCommand_commandWord _ _ _
  | rotccw => exact decodeCommand_commandWord _ _ _
  | setfreq val => exact (decodeCommand_commandWord _ _ _).trans (halfOperand_zero val .setfreq)
  | stop => exact decodeCommand_commandWord _ _ _
  | rxclr => exact decodeCommand_commandWord _ _ _
  | rxpush b => exact (decodeCommand_commandWord _ _ _).trans (byteOperand_join b .rxpush)
  | dec efc => exact (decodeCommand_commandWord _ _ _).trans (byteOperand_join efc .dec)
  | frameWsr sid addr val cl ch => exact decodeFrame_wsr sid addr val cl ch
  | frameException sid code cl ch => exact decodeFrame_exception sid code cl ch

/-- Settles O1: row by row of the opcode table, the operands are read back from where the encoder put them. -/
theorem decodeOfEncodeIsInstr : Obligations.DecodeOfEncodeIsInstr := by
  unfold Obligations.DecodeOfEncodeIsInstr
  exact decode_encode

/-- Settles O4: each of the words and frames is the encoding of the instruction it stands for. -/
theorem sampleWordsDecode : Obligations.SampleWordsDecode := by
  unfold Obligations.SampleWordsDecode
  exact ⟨decode_encode .crcinit, decode_encode (.crcbyte 0x60#8), decode_encode (.setid 0x0101#16),
    decode_encode (.encwsr 0x5000#16 0x1388#16), decode_encode .rotcw, decode_encode .rotccw,
    decode_encode (.setfreq 0x1388#16), decode_encode .stop, decode_encode .rxclr,
    decode_encode (.rxpush 0xAA#8), decode_encode (.dec 0x06#8),
    decode_encode (.frameWsr 0x01#8 0x6000#16 0x0001#16 0x56#8 0x0A#8),
    decode_encode (.frameException 0x01#8 0x02#8 0xC3#8 0xA1#8)⟩

/-! ## Encoding what decodes (R55, R60) -/

/-- What the fields of a word decode to is encoded with the same fields. -/
theorem encode_of_decodeFields {op : Byte} {a b : Half} {i : Instr}
    (h : decodeFields op.toNat a b = .ok i) : encode i = .command (commandWord op a b) := by
  obtain ⟨n, hn⟩ : ∃ n, op.toNat = n := ⟨_, rfl⟩
  obtain rfl : op = BitVec.ofNat 8 n := by rw [← hn, BitVec.ofNat_toNat, BitVec.setWidth_eq]
  rw [hn] at h
  unfold decodeFields at h
  split at h
  case h_1 | h_5 | h_6 | h_8 | h_9 => obtain ⟨rfl, rfl, rfl⟩ := noOperand_ok h; rfl
  case h_2 | h_10 | h_11 => obtain ⟨v, rfl, rfl, rfl⟩ := byteOperand_ok h; rfl
  case h_3 | h_7 => obtain ⟨rfl, rfl⟩ := halfOperand_ok h; rfl
  case h_4 => cases h; rfl
  case h_12 => cases h

theorem encode_of_decodeCommand {cw : CommandWord} {i : Instr} (h : decodeCommand cw = .ok i) :
    encode i = .command cw := by
  rw [encode_of_decodeFields h, commandWord_fields]

theorem encode_of_decodeFrame {bytes : List Byte} {i : Instr} (h : decodeFrame bytes = .ok i) :
    encode i = .response bytes := by
  unfold decodeFrame at h
  split at h
  · next sid fc rh rl vh vl cl ch =>
    split_ifs at h with hfc
    cases h
    simp [encode, wsrPayload, hi_join, lo_join, hfc]
  · next sid fc code cl ch =>
    split_ifs at h with hfc
    cases h
    simp [encode, exceptionPayload, hfc]
  · cases h

theorem encode_of_decode {p : Presented} {i : Instr} (h : decode p = .ok i) : encode i = p := by
  cases p with
  | command cw => exact encode_of_decodeCommand h
  | response bytes => exact encode_of_decodeFrame h

/-- An instruction's word is the only one that decodes to it. -/
theorem decodeCommand_eq_ok_iff {cw : CommandWord} {i : Instr} :
    decodeCommand cw = .ok i ↔ encode i = .command cw := by
  refine ⟨encode_of_decodeCommand, fun h => ?_⟩
  have hdecode := decode_encode i
  rw [h] at hdecode
  exact hdecode

/-- Settles O2: the decoder loses no bit of a word, and no byte of a frame. -/
theorem encodeOfDecodeIsWord : Obligations.EncodeOfDecodeIsWord := by
  unfold Obligations.EncodeOfDecodeIsWord
  intro p i h
  exact encode_of_decode h

/-! ## The legal command words (R54, R56) -/

/-- The operation code is assigned, and the fields that R54 marks 0 for it are 0. -/
def FieldsFit (op : Nat) (a b : Half) : Prop :=
  ((op = 0x01 ∨ op = 0x05 ∨ op = 0x06 ∨ op = 0x08 ∨ op = 0x09) ∧ a = 0#16 ∧ b = 0#16) ∨
  ((op = 0x02 ∨ op = 0x0A ∨ op = 0x0B) ∧ a = 0#16 ∧ hi b = 0#8) ∨
  ((op = 0x03 ∨ op = 0x07) ∧ a = 0#16) ∨
  op = 0x04

theorem noOperand_isOk_iff (a b : Half) (i : Instr) :
    (∃ j, noOperand a b i = .ok j) ↔ a = 0#16 ∧ b = 0#16 := by
  unfold noOperand
  split_ifs with h <;> simp [h]

theorem byteOperand_isOk_iff (a b : Half) (i : Byte → Instr) :
    (∃ j, byteOperand a b i = .ok j) ↔ a = 0#16 ∧ hi b = 0#8 := by
  unfold byteOperand
  split_ifs with h <;> simp [h]

theorem halfOperand_isOk_iff (a b : Half) (i : Half → Instr) :
    (∃ j, halfOperand a b i = .ok j) ↔ a = 0#16 := by
  unfold halfOperand
  split_ifs with h <;> simp [h]

/-- The fields that decode are the legal ones. -/
theorem decodeFields_isOk_iff (op : Nat) (a b : Half) :
    (∃ i, decodeFields op a b = .ok i) ↔ FieldsFit op a b := by
  unfold decodeFields
  split
  case h_1 | h_5 | h_6 | h_8 | h_9 => simp [noOperand_isOk_iff, FieldsFit]
  case h_2 | h_10 | h_11 => simp [byteOperand_isOk_iff, FieldsFit]
  case h_3 | h_7 => simp [halfOperand_isOk_iff, FieldsFit]
  case h_4 => simp [FieldsFit]
  case h_12 => simp_all [FieldsFit]

/-! ## The table's rows by field (R55) -/

theorem fieldOp_and (v w : CommandWord) : fieldOp (v &&& w) = fieldOp v &&& fieldOp w :=
  BitVec.extractLsb'_and

theorem fieldA_and (v w : CommandWord) : fieldA (v &&& w) = fieldA v &&& fieldA w :=
  BitVec.extractLsb'_and

theorem fieldB_and (v w : CommandWord) : fieldB (v &&& w) = fieldB v &&& fieldB w :=
  BitVec.extractLsb'_and

theorem hi_and (v w : Half) : hi (v &&& w) = hi v &&& hi w :=
  BitVec.extractLsb'_and

/-- Every row's mask fixes all of `OP` and leaves free no operand bit that R54 marks 0, and its pattern sets no operand
bit. -/
theorem commandRows_masks : ∀ r ∈ commandRows, fieldOp r.mask = 0xFF#8 ∧
    FieldsFit (fieldOp r.pattern).toNat (~~~fieldA r.mask) (~~~fieldB r.mask) ∧
    fieldA r.pattern = 0#16 ∧ fieldB r.pattern = 0#16 := by
  unfold FieldsFit
  decide

theorem commandRows_op_injective : ∀ r ∈ commandRows, ∀ r' ∈ commandRows,
    fieldOp r.pattern = fieldOp r'.pattern → r = r' := by decide

theorem eq_zero_of_and_eq_zero {w : Nat} {v m : BitVec w} (hm : ~~~m = 0#w) (h : v &&& m = 0#w) :
    v = 0#w := by
  have hones : m = BitVec.allOnes w := by rw [← BitVec.not_not (b := m), hm, BitVec.not_zero]
  rwa [hones, BitVec.and_allOnes] at h

theorem hi_not (v : Half) : hi (~~~v) = ~~~hi v := by
  ext i h
  simp [hi, show 8 + i < 16 by omega]

/-- Fields that are 0 under a row's masks fit wherever the bits free of the masks do. -/
theorem FieldsFit.of_masks {op : Nat} {a b ma mb : Half} (h : FieldsFit op (~~~ma) (~~~mb))
    (ha : a &&& ma = 0#16) (hb : b &&& mb = 0#16) : FieldsFit op a b := by
  have hhi : hi b &&& hi mb = 0#8 := by rw [← hi_and, hb]; rfl
  rcases h with ⟨hop, hma, hmb⟩ | ⟨hop, hma, hmb⟩ | ⟨hop, hma⟩ | hop
  · exact .inl ⟨hop, eq_zero_of_and_eq_zero hma ha, eq_zero_of_and_eq_zero hmb hb⟩
  · rw [hi_not] at hmb
    exact .inr (.inl ⟨hop, eq_zero_of_and_eq_zero hma ha, eq_zero_of_and_eq_zero hmb hhi⟩)
  · exact .inr (.inr (.inl ⟨hop, eq_zero_of_and_eq_zero hma ha⟩))
  · exact .inr (.inr (.inr hop))

theorem fieldOp_of_rowFits {r : CommandRow} {cw : CommandWord} (hr : r ∈ commandRows)
    (hfit : cw &&& r.mask = r.pattern) : fieldOp cw = fieldOp r.pattern := by
  obtain ⟨hop, -⟩ := commandRows_masks r hr
  have hall : (0xFF#8 : Byte) = BitVec.allOnes 8 := rfl
  rw [← hfit, fieldOp_and, hop, hall, BitVec.and_allOnes]

/-- No word fits two rows: they would have the same `OP`. -/
theorem commandRow_unique {r r' : CommandRow} {cw : CommandWord} (hr : r ∈ commandRows)
    (hr' : r' ∈ commandRows) (hfit : cw &&& r.mask = r.pattern) (hfit' : cw &&& r'.mask = r'.pattern) :
    r' = r :=
  commandRows_op_injective r' hr' r hr
    ((fieldOp_of_rowFits hr' hfit').symm.trans (fieldOp_of_rowFits hr hfit))

/-- A word that fits a row decodes. -/
theorem decodeCommand_isOk_of_rowFits {r : CommandRow} {cw : CommandWord} (hr : r ∈ commandRows)
    (hfit : cw &&& r.mask = r.pattern) : ∃ i, decodeCommand cw = .ok i := by
  obtain ⟨-, hmasks, ha, hb⟩ := commandRows_masks r hr
  refine (decodeFields_isOk_iff _ _ _).mpr ?_
  rw [fieldOp_of_rowFits hr hfit]
  exact hmasks.of_masks (by rw [← fieldA_and, hfit, ha]) (by rw [← fieldB_and, hfit, hb])

/-- Every instruction's encoding fits the table's row of its mnemonic. -/
theorem tableRow_statement (i : Instr) : Laws.TableRow.Statement i := by
  cases i with
  | crcinit => exact Laws.TableRow.crcinit
  | crcbyte b => exact Laws.TableRow.crcbyte b
  | setid id => exact Laws.TableRow.setid id
  | encwsr addr val => exact Laws.TableRow.encwsr addr val
  | rotcw => exact Laws.TableRow.rotcw
  | rotccw => exact Laws.TableRow.rotccw
  | setfreq val => exact Laws.TableRow.setfreq val
  | stop => exact Laws.TableRow.stop
  | rxclr => exact Laws.TableRow.rxclr
  | rxpush b => exact Laws.TableRow.rxpush b
  | dec efc => exact Laws.TableRow.dec efc
  | frameWsr sid addr val cl ch => exact Laws.TableRow.frameWsr sid addr val cl ch
  | frameException sid code cl ch => exact Laws.TableRow.frameException sid code cl ch

/-- A word that decodes fits the row of the instruction it decodes to. -/
theorem rowFits_of_decodeCommand {cw : CommandWord} {i : Instr} (h : decodeCommand cw = .ok i) :
    ∃ r ∈ commandRows, r.mnemonic = i.mnemonic ∧ cw &&& r.mask = r.pattern := by
  have hrow := tableRow_statement i
  rw [Laws.TableRow.Statement, encode_of_decodeCommand h] at hrow
  exact hrow

/-! ## A step on a command word (R55, R56) -/

theorem step_of_legal_command {s : State} {cw : CommandWord} {rest : List HostEvent} {i : Instr}
    (hport : s.port = .present (.command cw) :: rest) (hdecode : decodeCommand cw = .ok i) :
    step s = exec i { s with port := rest, epoch := s.epoch + 1 } :=
  stepRunsDecodedInstr s (.command cw) rest i hport hdecode

/-- An illegal word is refused with `IllegalOp` (R56, R108). -/
theorem step_of_illegal_command {s : State} {cw : CommandWord} {rest : List HostEvent} {e : Reject}
    (hport : s.port = .present (.command cw) :: rest) (hdecode : decodeCommand cw = .error e) :
    step s = .next { s with port := rest, epoch := s.epoch + 1, status := .illegalOp } := by
  have hnone : decode (.command cw) = .error e := hdecode
  rw [step_of_present hport, servePresented, hnone]
  rfl

/-- Settles O3: a word that decodes fits the row of its instruction, and a word that fits a row decodes. -/
theorem everyWordFitsOneRowOrIsIllegal : Obligations.EveryWordFitsOneRowOrIsIllegal := by
  unfold Obligations.EveryWordFitsOneRowOrIsIllegal
  intro cw
  cases hdecode : decodeCommand cw with
  | ok i =>
    obtain ⟨r, hr, hname, hfit⟩ := rowFits_of_decodeCommand hdecode
    exact .inl ⟨i, r, rfl, hr, hname, hfit, fun r' hr' hfit' => commandRow_unique hr hr' hfit hfit',
      fun s _ hport => ⟨s.epoch + 1, step_of_legal_command hport hdecode⟩⟩
  | error e =>
    refine .inr ⟨⟨e, rfl⟩, fun r hr hfit => ?_,
      fun s _ hport => ⟨s.epoch + 1, step_of_illegal_command hport hdecode⟩⟩
    obtain ⟨i, hi⟩ := decodeCommand_isOk_of_rowFits hr hfit
    rw [hdecode] at hi
    cases hi

/-! ## The fields that must be zero, as bits of the word (R53, R56) -/

/-- The low 32 bits of a word are its two operand fields. -/
theorem operandBits_eq (cw : CommandWord) : cw.extractLsb' 0 32 = fieldA cw ++ fieldB cw :=
  (BitVec.extractLsb'_append_extractLsb'_eq_extractLsb' (len₁ := 16) (len₂ := 16) rfl).symm

theorem hi_fieldB (cw : CommandWord) : hi (fieldB cw) = cw.extractLsb' 8 8 := by
  ext i h
  simp [hi, fieldB]

/-- The operand bits above a byte operand. -/
theorem operandBits_above_byte_eq (cw : CommandWord) :
    cw.extractLsb' 8 24 = fieldA cw ++ hi (fieldB cw) := by
  rw [hi_fieldB]
  exact (BitVec.extractLsb'_append_extractLsb'_eq_extractLsb' (len₁ := 8) (len₂ := 16) rfl).symm

/-- A legal operation code has its operand bits zero where its form wants them so. -/
theorem FieldsFit.zero_bits {cw : CommandWord}
    (h : FieldsFit (fieldOp cw).toNat (fieldA cw) (fieldB cw)) :
    let op := (cw.extractLsb' 32 8).toNat
    ((op = 0x01 ∨ op = 0x05 ∨ op = 0x06 ∨ op = 0x08 ∨ op = 0x09) ∧ cw.extractLsb' 0 32 = 0#32) ∨
    ((op = 0x02 ∨ op = 0x0A ∨ op = 0x0B) ∧ cw.extractLsb' 8 24 = 0#24) ∨
    ((op = 0x03 ∨ op = 0x07) ∧ cw.extractLsb' 16 16 = 0#16) ∨
    op = 0x04 := by
  rcases h with ⟨hop, ha, hb⟩ | ⟨hop, ha, hb⟩ | ⟨hop, ha⟩ | hop
  · exact .inl ⟨hop, by rw [operandBits_eq, ha, hb]; rfl⟩
  · exact .inr (.inl ⟨hop, by rw [operandBits_above_byte_eq, ha, hb]; rfl⟩)
  · exact .inr (.inr (.inl ⟨hop, ha⟩))
  · exact .inr (.inr (.inr hop))

/-- Settles O5: each clause of R56 contradicts the form that a word with its `OP` must have to decode. -/
theorem illegalWordOnlyWritesStatus : Obligations.IllegalWordOnlyWritesStatus := by
  unfold Obligations.IllegalWordOnlyWritesStatus
  intro s cw rest hport hillegal
  cases hdecode : decodeCommand cw with
  | error e => exact ⟨s.epoch + 1, step_of_illegal_command hport hdecode⟩
  | ok i =>
    have hfit := ((decodeFields_isOk_iff _ _ _).mp ⟨i, hdecode⟩).zero_bits
    exfalso
    grind

/-! ## Sequences of operations -/

@[simp] theorem execAll_nil (s : State) : execAll [] s = .next s := rfl

theorem execAll_cons_of_next {i : Instr} {s t : State} (h : exec i s = .next t) (is : List Instr) :
    execAll (i :: is) s = execAll is t := by
  rw [execAll, h]

/-- One `CRCBYTE` per byte carries the accumulator through the bytes (R69). -/
theorem execAll_crcbyte (bs : List Byte) : ∀ s : State, s.status = .ok →
    execAll (bs.map Instr.crcbyte) s = .next { s with crc := crcFrom s.crc bs } := by
  induction bs with
  | nil => intro s _; rfl
  | cons b bs ih =>
    intro s hok
    rw [List.map_cons, execAll_cons_of_next (exec_crcbyte b s), ih _ rfl, crcFrom_cons, ← hok]

/-- Settles O23: `CRCINIT` puts the start value, and the `CRCBYTE`s carry it through the bytes. -/
theorem crcOperationsComputeCrc16 : Obligations.CrcOperationsComputeCrc16 := by
  unfold Obligations.CrcOperationsComputeCrc16
  intro s bs
  rw [execAll_cons_of_next (exec_crcinit s), execAll_crcbyte bs _ rfl]
  rfl

/-- Settles O27: each of them builds the frame that `ENCWSR` with its register and value builds. -/
theorem fixedCommandsEqualGeneralForm : Obligations.FixedCommandsEqualGeneralForm := by
  unfold Obligations.FixedCommandsEqualGeneralForm
  intro s v
  simp only [exec_rotcw, exec_rotccw, exec_setfreq, exec_stop, exec_encwsr, and_self]

/-- One `RXPUSH` per byte, with operations after them. -/
theorem execAll_rxpush (bs : List Byte) (is : List Instr) :
    ∀ s : State, execAll (bs.map Instr.rxpush ++ is) s = execAll is (s.pushAll bs) := by
  induction bs with
  | nil => intro s; rfl
  | cons b bs ih => intro s; exact ih (s.push b)

/-- `RXCLR`, one `RXPUSH` per byte and `DEC`, run one after the other (R100). -/
theorem execAll_receive (bs : List Byte) (efc : Byte) (s : State) :
    execAll (.rxclr :: (bs.map Instr.rxpush ++ [.dec efc])) s =
      .next ((s.clear.pushAll bs).judge efc) := by
  rw [execAll_cons_of_next (exec_rxclr s), execAll_rxpush, execAll_cons_of_next (exec_dec efc _),
    execAll_nil]

/-! ## Judging the bytes of one reception (R95, R100) -/

theorem State.configure_of_legal {sid : Byte} (h1 : 1 ≤ sid.toNat) (h2 : sid.toNat ≤ 247) (s : State) :
    s.configure (sid.setWidth 16) = { s with slaveId := sid, idValid := true, status := .ok } := by
  have hid : (sid.setWidth 16).toNat = sid.toNat := BitVec.toNat_setWidth_of_le (by omega)
  rcases s.configure_cases (sid.setWidth 16) with ⟨_, _, h⟩ | ⟨hout, _⟩
  · rw [h, lo_setWidth]
  · omega

theorem State.judge_of_unset {s : State} (h : s.idValid = false) (efc : Byte) :
    s.judge efc = { s with status := .notConfigured } :=
  if_pos h

theorem State.judge_of_ready {s : State} (hid : s.idValid = true) (hovf : s.rxOvf = false) (efc : Byte) :
    s.judge efc = { s with
      crc := s.recomputedCrc, excode := (decodeResponse s.rxBytes s.slaveId efc).2,
      status := (decodeResponse s.rxBytes s.slaveId efc).1 } := by
  rcases s.judge_cases efc with ⟨_, _, h⟩ | ⟨hunset, _⟩ | ⟨_, hset, _⟩
  · exact h
  · rw [hid] at hunset; cases hunset
  · rw [hovf] at hset; cases hset

/-- An unconfigured block holds the bytes it received and refuses to judge them. -/
theorem State.judge_received_of_unset {bytes : List Byte} (hfit : bytes.length ≤ 8) {s : State}
    (hid : s.idValid = false) (efc : Byte) :
    (s.clear.pushAll bytes).judge efc = { s with
      rx := Memory.writeFrom s.rx 0 bytes, rxLen := Fin.ofNat 9 bytes.length, rxOvf := false,
      status := .notConfigured } := by
  rw [State.pushAll_clear hfit, State.judge_of_unset (by exact hid)]
  rfl

/-- A configured block judges exactly the bytes it received. -/
theorem State.judge_received {bytes : List Byte} (hfit : bytes.length ≤ 8) {s : State}
    (hid : s.idValid = true) (efc : Byte) :
    (s.clear.pushAll bytes).judge efc = { s with
      rx := Memory.writeFrom s.rx 0 bytes, rxLen := Fin.ofNat 9 bytes.length, rxOvf := false,
      crc := if 5 ≤ bytes.length then crc16 (payload bytes) else s.crc,
      excode := (decodeResponse bytes s.slaveId efc).2,
      status := (decodeResponse bytes s.slaveId efc).1 } := by
  have hheld := State.rxBytes_pushAll_clear hfit s
  have hlen : (Fin.ofNat 9 bytes.length).val = bytes.length := Nat.mod_eq_of_lt (by omega)
  rw [State.pushAll_clear hfit] at hheld ⊢
  rw [State.judge_of_ready (by exact hid) rfl, State.recomputedCrc, hheld]
  simp only [hlen]
  rfl

/-- Settles O35: the pushes leave the bytes in the buffer, and `DEC` judges them for the id that `SETID` took. -/
theorem decodeOperationsComputeDecodeResponse : Obligations.DecodeOperationsComputeDecodeResponse := by
  unfold Obligations.DecodeOperationsComputeDecodeResponse
  intro s sid efc bs h1 h2 hfit
  rw [execAll_cons_of_next (exec_setid _ s), execAll_receive, State.configure_of_legal h1 h2,
    State.judge_received hfit (by rfl)]
  exact ⟨_, rfl, rfl⟩

/-! ## The tests of R94 on an expected function code with bit 7 set -/

/-- Where the outcome is `SlaveException`, byte 1 is not the expected function code but its exception form (R94). -/
theorem functionCode_of_slaveException {bs : List Byte} {esid efc : Byte}
    (h : (decodeResponse bs esid efc).1 = .slaveException) :
    bs.getD 1 0 ≠ efc ∧ bs.getD 1 0 = efc ||| Config.exceptionBit := by
  unfold decodeResponse at h
  split_ifs at h with _ _ _ hne hexc
  exact ⟨hne, hexc⟩

/-- With bit 7 set the exception form of a function code is the code itself (R51). -/
theorem or_exceptionBit_of_bit7 {efc : Byte} (h : efc.getLsbD 7 = true) :
    efc ||| Config.exceptionBit = efc := by
  revert efc
  decide

/-- Settles O38: the two function codes that `SlaveException` tells apart are then the same. -/
theorem efcWithBit7NeverGivesSlaveException : Obligations.EfcWithBit7NeverGivesSlaveException := by
  unfold Obligations.EfcWithBit7NeverGivesSlaveException
  intro bs esid efc hbit hexc
  obtain ⟨hne, heq⟩ := functionCode_of_slaveException hexc
  exact hne (heq.trans (or_exceptionBit_of_bit7 hbit))

/-! ## Frames from the link (R46, R47, R100) -/

/-- A response of exactly the bytes its byte 1 asks for is pushed whole and judged. -/
theorem State.receive_of_whole {bytes : List Byte} (h : bytes.length = need bytes) (s : State) :
    s.receive bytes = (s.clear.pushAll bytes).judge Config.fcWsr := by
  rw [State.receive_eq, if_neg (by omega), ← h, List.take_length]

/-- Settles O40: a frame is as long as its function code asks for, so all of it is pushed and judged. -/
theorem frameIsReceivedByOperations : Obligations.FrameIsReceivedByOperations := by
  unfold Obligations.FrameIsReceivedByOperations
  refine ⟨fun s sid addr val cl ch => ?_, fun s sid code cl ch => ?_⟩
  · rw [exec_frameWsr, State.receive_of_whole rfl]
    exact (execAll_receive (wsrPayload sid addr val ++ [cl, ch]) Config.fcWsr s).symm
  · rw [exec_frameException, State.receive_of_whole rfl]
    exact (execAll_receive (exceptionPayload sid code ++ [cl, ch]) Config.fcWsr s).symm

section WholeResponse

variable {bytes : List Byte} (hwhole : bytes.length = need bytes) (s : State)

include hwhole

theorem five_le_length_of_whole : 5 ≤ bytes.length := by
  rcases need_eq bytes with h | h <;> omega

theorem length_le_eight_of_whole : bytes.length ≤ 8 := by
  rcases need_eq bytes with h | h <;> omega

/-- Its bytes are stored from address 0 on, whether they are judged or not. -/
theorem State.receive_rx_of_whole : (s.receive bytes).rx = Memory.writeFrom s.rx 0 bytes := by
  rw [State.receive_of_whole hwhole, State.pushAll_clear (length_le_eight_of_whole hwhole)]
  simp

theorem State.read_receive_inside {a : Nat} (ha : a < bytes.length) :
    Memory.read (s.receive bytes).rx a = bytes[a]? := by
  simpa [State.receive_rx_of_whole hwhole] using Memory.read_writeFrom_inside bytes s.rx 0 a ha

theorem State.read_receive_outside {a : Nat} (ha : bytes.length ≤ a) :
    Memory.read (s.receive bytes).rx a = Memory.read s.rx a := by
  rw [State.receive_rx_of_whole hwhole]
  exact Memory.read_writeFrom_outside bytes s.rx 0 a (.inr (by omega))

theorem State.receive_of_whole_configured (hid : s.idValid = true) :
    s.receive bytes = { s with
      rx := (s.receive bytes).rx, rxLen := Fin.ofNat 9 bytes.length, rxOvf := false,
      crc := crc16 (payload bytes),
      excode := (decodeResponse bytes s.slaveId Config.fcWsr).2,
      status := (decodeResponse bytes s.slaveId Config.fcWsr).1 } := by
  rw [State.receive_rx_of_whole hwhole, State.receive_of_whole hwhole,
    State.judge_received (length_le_eight_of_whole hwhole) hid,
    if_pos (five_le_length_of_whole hwhole)]

theorem State.receive_of_whole_unset (hid : s.idValid = false) :
    s.receive bytes = { s with
      rx := (s.receive bytes).rx, rxLen := Fin.ofNat 9 bytes.length, rxOvf := false,
      status := .notConfigured } := by
  rw [State.receive_rx_of_whole hwhole, State.receive_of_whole hwhole,
    State.judge_received_of_unset (length_le_eight_of_whole hwhole) hid]

end WholeResponse

/-- The tests of R94 on a payload with its two CRC bytes after it. -/
theorem decodeResponse_append {p : List Byte} (hp : 3 ≤ p.length) (l h esid efc : Byte) :
    decodeResponse (p ++ [l, h]) esid efc =
      if crc16 p ≠ h ++ l then (.checksumMismatch, 0x00#8)
      else if p.getD 0 0 ≠ esid then (.unexpectedSlave, 0x00#8)
      else if p.getD 1 0 = efc then (.ack, 0x00#8)
      else if p.getD 1 0 = efc ||| 0x80#8 then (.slaveException, p.getD 2 0)
      else (.malformedFrame, 0x00#8) := by
  have hshort : ¬ (p ++ [l, h]).length < Config.excLen := by simp [Config.excLen]; omega
  rw [decodeResponse, if_neg hshort, payload_append, trailingCrc_append,
    List.getD_append _ _ _ 0 (by omega), List.getD_append _ _ _ 1 (by omega),
    List.getD_append _ _ _ 2 (by omega)]
  rfl

/-- `DEC 0x06` on an 8-byte frame: the function code is the expected one, so the tests of R94 end with it. -/
theorem decodeResponse_wsr (sid : Byte) (addr val : Half) (l h esid : Byte) :
    decodeResponse (wsrPayload sid addr val ++ [l, h]) esid Config.fcWsr =
      (if crc16 (wsrPayload sid addr val) ≠ h ++ l then .checksumMismatch
        else if sid ≠ esid then .unexpectedSlave else .ack, 0x00#8) := by
  have hsid0 : (wsrPayload sid addr val).getD 0 0 = sid := rfl
  have hfc : (wsrPayload sid addr val).getD 1 0 = Config.fcWsr := rfl
  rw [decodeResponse_append (by simp [wsrPayload]), hsid0, if_pos hfc]
  split_ifs <;> rfl

/-- `DEC 0x06` on a 5-byte frame: the function code is the exception form of the expected one. -/
theorem decodeResponse_exception (sid code l h esid : Byte) :
    decodeResponse (exceptionPayload sid code ++ [l, h]) esid Config.fcWsr =
      (if crc16 (exceptionPayload sid code) ≠ h ++ l then .checksumMismatch
        else if sid ≠ esid then .unexpectedSlave else .slaveException,
       if crc16 (exceptionPayload sid code) ≠ h ++ l then 0x00#8
        else if sid ≠ esid then 0x00#8 else code) := by
  have hsid0 : (exceptionPayload sid code).getD 0 0 = sid := rfl
  have hcode : (exceptionPayload sid code).getD 2 0 = code := rfl
  have hne : (exceptionPayload sid code).getD 1 0 ≠ Config.fcWsr :=
    show Config.fcWsr ||| Config.exceptionBit ≠ Config.fcWsr by decide
  have hexc : (exceptionPayload sid code).getD 1 0 = Config.fcWsr ||| 0x80#8 := rfl
  rw [decodeResponse_append (by simp [exceptionPayload]), hsid0, hcode, if_neg hne, if_pos hexc]
  split_ifs <;> rfl

/-- Settles O41: the frame is stored whole, and the tests of R94 up to the slave id judge it. -/
theorem wsrFrameIsStoredAndJudged : Obligations.WsrFrameIsStoredAndJudged := by
  unfold Obligations.WsrFrameIsStoredAndJudged
  intro s sid addr val cl ch
  have hwhole : (wsrPayload sid addr val ++ [cl, ch]).length =
    need (wsrPayload sid addr val ++ [cl, ch]) := rfl
  refine ⟨_, exec_frameWsr sid addr val cl ch s, fun a ha => State.read_receive_inside hwhole s ha,
    fun a ha => State.read_receive_outside hwhole s ha, fun hid => ?_,
    State.receive_of_whole_unset hwhole s⟩
  have hjudged := State.receive_of_whole_configured hwhole s hid
  rw [payload_append, decodeResponse_wsr] at hjudged
  exact hjudged

/-- Settles O42: the same, and a frame that passes the tests delivers its exception code. -/
theorem exceptionFrameIsStoredAndJudged : Obligations.ExceptionFrameIsStoredAndJudged := by
  unfold Obligations.ExceptionFrameIsStoredAndJudged
  intro s sid code cl ch
  have hwhole : (exceptionPayload sid code ++ [cl, ch]).length =
    need (exceptionPayload sid code ++ [cl, ch]) := rfl
  refine ⟨_, exec_frameException sid code cl ch s, fun a ha => State.read_receive_inside hwhole s ha,
    fun a ha => State.read_receive_outside hwhole s ha, fun hid => ?_,
    State.receive_of_whole_unset hwhole s⟩
  have hjudged := State.receive_of_whole_configured hwhole s hid
  rw [payload_append, decodeResponse_exception] at hjudged
  exact hjudged

end Sys2Proof.Machine

/-! PROOFS. The CRC generator (40_crc.md): the bit loop, linearity and injectivity of the CRC step, the residue of a
sequence with its CRC after it, and the checksum of a frame with a changed byte; the two CRC operations. -/

namespace Sys2Proof.Machine

/-! ## The bit loop (R66) -/

/-- The last iteration of the loop, where `crcShifts_succ` takes off the first. -/
theorem crcShifts_succ_last (n : Nat) :
    ∀ acc : Half, crcShifts (n + 1) acc = crcShift (crcShifts n acc) := by
  induction n with
  | zero => intro acc; rfl
  | succ n ih => intro acc; exact ih (crcShift acc)

/-- Settles O17: the nine values are those the accumulator has after 0 to 8 iterations. -/
theorem crcByteFollowsBitLoop : Obligations.CrcByteFollowsBitLoop := by
  unfold Obligations.CrcByteFollowsBitLoop
  intro acc b
  refine ⟨fun k => crcShifts k (acc ^^^ (0#8 ++ b)), rfl, fun k _ => crcShifts_succ_last k _, ?_⟩
  rw [crcByte, zero_append_byte]

/-- Iterations in which the tested bit is 0 only shift. -/
theorem crcShifts_eq_ushiftRight (n : Nat) :
    ∀ acc : Half, (∀ i < n, acc.getLsbD i = false) → crcShifts n acc = acc >>> n := by
  induction n with
  | zero => intro acc _; exact (BitVec.ushiftRight_zero acc).symm
  | succ n ih =>
    intro acc hlow
    have hshift : crcShift acc = acc >>> 1 := by
      rw [crcShift, if_neg (by rw [hlow 0 n.succ_pos]; exact Bool.false_ne_true)]
    have hlow' : ∀ i < n, (acc >>> 1).getLsbD i = false := fun i hi => by
      simpa using hlow (1 + i) (by omega)
    rw [crcShifts_succ, hshift, ih _ hlow', ← BitVec.shiftRight_add, Nat.add_comm]

/-! ## Linearity and injectivity (R67, G1) -/

theorem crcShift_injective : Function.Injective crcShift := fun a a' h =>
  BitVec.xor_eq_zero_iff.mp (crcShift_eq_zero (by rw [crcShift_xor, h, BitVec.xor_self]))

theorem crcShifts_injective (n : Nat) : Function.Injective (crcShifts n) := by
  induction n with
  | zero => exact fun _ _ h => h
  | succ n ih => exact ih.comp crcShift_injective

theorem crcByte_xor (a a' : Half) (b b' : Byte) :
    crcByte (a ^^^ a') (b ^^^ b') = crcByte a b ^^^ crcByte a' b' := by
  have hswap : (a ^^^ a') ^^^ (b ^^^ b').setWidth 16 =
      (a ^^^ b.setWidth 16) ^^^ (a' ^^^ b'.setWidth 16) := by
    rw [BitVec.setWidth_xor]
    ac_rfl
  rw [crcByte, hswap, crcShifts_xor, ← crcByte, ← crcByte]

theorem crcByte_injective_acc (b : Byte) : Function.Injective (crcByte · b) := fun _ _ h =>
  (BitVec.xor_left_inj (b.setWidth 16)).mp (crcShifts_injective 8 h)

theorem crcByte_injective_byte (acc : Half) : Function.Injective (crcByte acc) := fun b b' h => by
  have hwide : b.setWidth 16 = b'.setWidth 16 := (BitVec.xor_right_inj acc).mp (crcShifts_injective 8 h)
  rw [← lo_setWidth b, hwide, lo_setWidth]

/-- Settles O20: both follow from the linearity of one iteration and from its taking only 0 to 0. -/
theorem crcByteIsLinearAndInjective : Obligations.CrcByteIsLinearAndInjective := by
  unfold Obligations.CrcByteIsLinearAndInjective
  intro a a' b b'
  exact ⟨crcByte_xor a a' b b', fun h => crcByte_injective_acc b h⟩

/-! ## The CRC of a sequence (R65, R72) -/

/-- Settles O18: the last byte is the last step of the fold. -/
theorem crc16FoldsBytesInOrder : Obligations.Crc16FoldsBytesInOrder := by
  unfold Obligations.Crc16FoldsBytesInOrder
  exact ⟨rfl, fun s b => crcFrom_append s [b] Config.init⟩

/-- A byte equal to the accumulator's low byte cancels it, so all 8 iterations only shift. -/
theorem crcByte_lo (acc : Half) : crcByte acc (lo acc) = (hi acc).setWidth 16 := by
  have hlow : ∀ i < 8, (acc ^^^ (lo acc).setWidth 16).getLsbD i = false := fun i h => by
    simp [lo, h, show i < 16 by omega]
  rw [crcByte, crcShifts_eq_ushiftRight 8 _ hlow]
  ext i h
  by_cases h8 : i < 8
  · simp [lo, hi, h8]
  · simp [lo, hi, h8, BitVec.getLsbD_of_ge acc (8 + i) (by omega)]

/-- The accumulator followed by its own bytes, low byte first, is taken to 0. -/
theorem crcFrom_own_bytes (acc : Half) : crcFrom acc [lo acc, hi acc] = 0x0000#16 := by
  have hsecond : crcByte ((hi acc).setWidth 16) (hi acc) = crcShifts 8 0x0000#16 := by
    rw [crcByte, BitVec.xor_self]
  rw [crcFrom_cons, crcByte_lo, crcFrom_cons, hsecond, crcFrom_nil]
  rfl

theorem crc16_withCrc (p : List Byte) : crc16 (withCrc p) = 0x0000#16 := by
  rw [withCrc, crc16, crcFrom_append]
  exact crcFrom_own_bytes (crc16 p)

/-- Settles O19: the two bytes cancel the accumulator one after the other. -/
theorem crcResidueIsZero : Obligations.CrcResidueIsZero := by
  unfold Obligations.CrcResidueIsZero
  exact crc16_withCrc

/-! ## One changed byte (R73, G2) -/

theorem crcFrom_injective (p : List Byte) : Function.Injective (crcFrom · p) := by
  induction p with
  | nil => exact fun _ _ h => h
  | cons b p ih => exact ih.comp (crcByte_injective_acc b)

/-- The changed byte gives another accumulator, and the bytes after it keep the two apart. -/
theorem crcFrom_set_ne {b : Byte} (p : List Byte) : ∀ (acc : Half) (k : Nat), k < p.length →
    p[k]? ≠ some b → crcFrom acc (p.set k b) ≠ crcFrom acc p := by
  induction p with
  | nil => intro acc k hk; cases hk
  | cons x p ih =>
    intro acc k hk hne
    cases k with
    | zero =>
      intro heq
      have hbyte : b = x := crcByte_injective_byte acc (crcFrom_injective p heq)
      exact hne (congrArg some hbyte.symm)
    | succ k => exact ih (crcByte acc x) k (Nat.lt_of_succ_lt_succ hk) hne

/-- A sequence that passes the checksum test of R94 ends in its own CRC, so it has CRC 0. -/
theorem decodeResponse_of_crc16_ne_zero {bs : List Byte} (hlen : 5 ≤ bs.length)
    (hcrc : crc16 bs ≠ 0x0000#16) (esid efc : Byte) :
    decodeResponse bs esid efc = (.checksumMismatch, 0x00#8) := by
  obtain ⟨l, h, hlast⟩ := List.length_eq_two.mp
    (show (bs.drop (bs.length - 2)).length = 2 by rw [List.length_drop]; omega)
  have hsplit : bs = payload bs ++ [l, h] := by rw [payload, ← hlast, List.take_append_drop]
  have hmismatch : crc16 (payload bs) ≠ h ++ l := fun heq => hcrc <| by
    have hown : bs = withCrc (payload bs) := by
      rw [withCrc, heq, ← join, lo_join, hi_join, ← hsplit]
    rw [hown, crc16_withCrc]
  rw [hsplit, decodeResponse_append (by rw [payload, List.length_take]; omega), if_pos hmismatch]

/-- Settles O37: the frame as built has CRC 0, so with one byte changed it does not. -/
theorem oneChangedByteIsChecksumMismatch : Obligations.OneChangedByteIsChecksumMismatch := by
  unfold Obligations.OneChangedByteIsChecksumMismatch
  intro sid addr val esid efc k b hk hne
  have hchanged : crc16 ((encodeWSR sid addr val).set k b) ≠ crc16 (encodeWSR sid addr val) :=
    crcFrom_set_ne _ Config.init k (by rwa [encodeWSR_length]) hne
  rw [encodeWSR, crc16_withCrc, ← encodeWSR] at hchanged
  exact decodeResponse_of_crc16_ne_zero (by rw [List.length_set, encodeWSR_length]; omega)
    hchanged esid efc

/-! ## The CRC operations (R68, R69) -/

/-- The only command word that decodes to an instruction is the one its row encodes it to. -/
theorem decodeCommand_eq_ok_iff_word {i : Instr} {v : CommandWord} (henc : encode i = .command v)
    (w : CommandWord) : decodeCommand w = .ok i ↔ w = v := by
  rw [decodeCommand_eq_ok_iff, henc, Presented.command.injEq, eq_comm]

/-- Settles O21: the arm of `exec` writes the two elements, and the word is the encoder's. -/
theorem crcinitSetsStartValue : Obligations.CrcinitSetsStartValue := by
  unfold Obligations.CrcinitSetsStartValue
  exact ⟨exec_crcinit, decodeCommand_eq_ok_iff_word rfl⟩

/-- The word of an operation with a byte operand, its fields written side by side. -/
theorem commandWord_join_zero (op b : Byte) :
    commandWord op 0#16 (join 0#8 b) = op ++ 0x0000#16 ++ 0x00#8 ++ b :=
  BitVec.append_assoc' (x₁ := op ++ 0x0000#16)

/-- Settles O22: the same for the operation with a byte operand. -/
theorem crcbyteStepsAccumulator : Obligations.CrcbyteStepsAccumulator := by
  unfold Obligations.CrcbyteStepsAccumulator
  intro b
  exact ⟨exec_crcbyte b,
    decodeCommand_eq_ok_iff_word (congrArg Presented.command (commandWord_join_zero 0x02#8 b))⟩

end Sys2Proof.Machine

/-! PROOFS. Configuration and the encoder (41_encoder.md): the ids that are accepted, the frame an encode operation builds, and
the round trip of an encoded frame through the decoder. -/

namespace Sys2Proof.Machine

/-! ## Configuration (R77) -/

theorem lo_eq_ofNat_toNat (v : Half) : lo v = BitVec.ofNat 8 v.toNat :=
  BitVec.eq_of_toNat_eq (by simp [lo])

/-- Settles O24: the range check of `configure_cases` decides, and the word is the encoder's. -/
theorem setidAcceptsOneTo247 : Obligations.SetidAcceptsOneTo247 := by
  unfold Obligations.SetidAcceptsOneTo247
  intro id s
  refine ⟨decodeCommand_eq_ok_iff_word rfl, ?_⟩
  rw [exec_setid, ← lo_eq_ofNat_toNat]
  rcases s.configure_cases id with ⟨h1, h247, haccept⟩ | ⟨hout, hrefuse⟩
  · exact ⟨fun _ _ => congrArg _ haccept, fun _ => by omega⟩
  · exact ⟨fun _ _ => by omega, fun _ => congrArg _ hrefuse⟩

/-! ## The frame (R75, R76) -/

/-- Settles O25: the payload is written out, and its CRC follows it. -/
theorem encodeWsrLaysOutFrame : Obligations.EncodeWsrLaysOutFrame := by
  unfold Obligations.EncodeWsrLaysOutFrame
  exact fun _ _ _ => rfl

section Configured

variable {s : State} (hid : s.idValid = true) (addr val : Half)

include hid

theorem State.build_of_set : s.build addr val = { s with
    tx := Memory.writeFrom s.tx 0 (encodeWSR s.slaveId addr val), txValid := true,
    crc := crc16 (wsrPayload s.slaveId addr val), status := .ok } := by
  rcases s.build_cases addr val with ⟨_, hb⟩ | ⟨hunset, _⟩
  · exact hb
  · rw [hid] at hunset; cases hunset

theorem State.read_build_inside {a : Nat} (ha : a < 8) :
    Memory.read (s.build addr val).tx a = (encodeWSR s.slaveId addr val)[a]? := by
  rw [State.build_of_set hid]
  simpa using Memory.read_writeFrom_inside (encodeWSR s.slaveId addr val) s.tx 0 a (by simpa using ha)

theorem State.read_build_outside {a : Nat} (ha : 8 ≤ a) :
    Memory.read (s.build addr val).tx a = Memory.read s.tx a := by
  rw [State.build_of_set hid]
  exact Memory.read_writeFrom_outside _ s.tx 0 a (.inr (by simpa using ha))

end Configured

/-- Settles O26: each of the five forms is the encoder's word and builds the frame of its register and value. -/
theorem encodeOpsBuildFrameOrRefuse : Obligations.EncodeOpsBuildFrameOrRefuse := by
  unfold Obligations.EncodeOpsBuildFrameOrRefuse
  intro s i addr val word hform
  obtain ⟨hword, hexec⟩ : encode i = .command word ∧ exec i s = .next (s.build addr val) := by
    rcases hform with ⟨rfl, rfl⟩ | ⟨rfl, rfl, rfl, rfl⟩ | ⟨rfl, rfl, rfl, rfl⟩ | ⟨rfl, rfl, rfl⟩ |
      ⟨rfl, rfl, rfl, rfl⟩
    · exact ⟨rfl, exec_encwsr addr val s⟩
    · exact ⟨rfl, exec_rotcw s⟩
    · exact ⟨rfl, exec_rotccw s⟩
    · exact ⟨rfl, exec_setfreq val s⟩
    · exact ⟨rfl, exec_stop s⟩
  refine ⟨decodeCommand_eq_ok_iff_word hword, fun hid => ?_, fun hid => ?_⟩
  · have hread {a : Nat} (ha : a < 8) := State.read_build_inside hid addr val ha
    have hframe : s.build addr val = { s with
        tx := (s.build addr val).tx, txValid := true,
        crc := crc16 (wsrPayload s.slaveId addr val), status := .ok } := by
      rw [State.build_of_set hid]
    exact ⟨s.build addr val, _, hexec, rfl, hread (by decide), hread (by decide), hread (by decide),
      hread (by decide), hread (by decide), hread (by decide), hread (by decide), hread (by decide),
      fun a => State.read_build_outside hid addr val, hframe⟩
  · rw [hexec, State.build_of_unset hid]

/-! ## The round trip (R84) -/

/-- The frame carries its own CRC, its own slave id and the function code `0x06`, so every test of R94 passes. -/
theorem decodeResponse_encodeWSR (sid : Byte) (addr val : Half) :
    decodeResponse (encodeWSR sid addr val) sid Config.fcWsr = (.ack, 0x00#8) := by
  have hcrc : crc16 (wsrPayload sid addr val) =
      hi (crc16 (wsrPayload sid addr val)) ++ lo (crc16 (wsrPayload sid addr val)) :=
    (join_hi_lo _).symm
  rw [encodeWSR, withCrc, decodeResponse_wsr, if_neg (not_not_intro hcrc), if_neg (not_not_intro rfl)]

/-- The eight bytes that can be read back after an encode operation are the frame of the configured id. -/
theorem State.eq_encodeWSR_of_read_build {s : State} (hid : s.idValid = true) {addr val : Half}
    {bs : List Byte} (hlen : bs.length = 8)
    (hbs : ∀ a, a < 8 → Memory.read (s.build addr val).tx a = bs[a]?) :
    bs = encodeWSR s.slaveId addr val := by
  refine List.ext_getElem? fun a => ?_
  by_cases ha : a < 8
  · rw [← hbs a ha, State.read_build_inside hid addr val ha]
  · rw [List.getElem?_eq_none (by omega), List.getElem?_eq_none (by rw [encodeWSR_length]; omega)]

/-- A configured block that receives the frame of its own id leaves `Ack`. -/
theorem State.judge_received_encodeWSR_status {s : State} (hid : s.idValid = true) (addr val : Half) :
    ((s.clear.pushAll (encodeWSR s.slaveId addr val)).judge Config.fcWsr).status = .ack := by
  rw [State.judge_received (by rw [encodeWSR_length]) hid, decodeResponse_encodeWSR]

/-- Settles O28: the bytes in `TXBUF` are the frame of the id that `SETID` took, and the decoder accepts it. -/
theorem echoOfEncodedFrameIsAck : Obligations.EchoOfEncodedFrameIsAck := by
  unfold Obligations.EchoOfEncodedFrameIsAck
  intro sid addr val h1 h247
  refine ⟨decodeResponse_encodeWSR sid addr val, fun s =>
    ⟨(s.configure (sid.setWidth 16)).build addr val, rfl, fun bs hlen hbs => ⟨_, execAll_receive bs _ _, ?_⟩⟩⟩
  have hid : (s.configure (sid.setWidth 16)).idValid = true := by
    rw [State.configure_of_legal h1 h247]
  obtain ⟨hslave, hvalid, _⟩ := (s.configure (sid.setWidth 16)).build_frame addr val
  rw [State.eq_encodeWSR_of_read_build hid hlen hbs, ← hslave]
  exact State.judge_received_encodeWSR_status (hvalid.trans hid) addr val

end Sys2Proof.Machine

/-! PROOFS. Receiving and decoding (42_decoder.md): the buffer operations, how many bytes a frame needs, the tests of R94,
what `DEC` does with the bytes held, and the reception of any byte sequence from the link. -/

namespace Sys2Proof.Machine

/-! ## The buffer operations (R90, R91) -/

/-- Settles O29: clearing writes the three elements, and the word is the encoder's. -/
theorem rxclrEmptiesBuffer : Obligations.RxclrEmptiesBuffer := by
  unfold Obligations.RxclrEmptiesBuffer
  exact ⟨exec_rxclr, decodeCommand_eq_ok_iff_word rfl⟩

theorem State.push_of_room {s : State} (h : s.rxLen ≠ 8) (b : Byte) :
    s.push b = { s with rx := Memory.write s.rx s.rxLen.val b, rxLen := s.rxLen + 1, status := .ok } := by
  rcases s.push_cases b with ⟨_, hp⟩ | ⟨hfull, _⟩
  · exact hp
  · exact absurd hfull h

/-- Settles O30: a push with room is one write at `RXLEN`, and one without is refused. -/
theorem rxpushStoresAtRxlenOrOverflows : Obligations.RxpushStoresAtRxlenOrOverflows := by
  unfold Obligations.RxpushStoresAtRxlenOrOverflows
  intro s b
  refine ⟨decodeCommand_eq_ok_iff_word (congrArg Presented.command (commandWord_join_zero 0x0A#8 b)),
    fun hroom => ?_, fun hfull => ?_⟩
  · have hne : s.rxLen ≠ 8 := Fin.ne_of_lt hroom
    rw [exec_rxpush, State.push_of_room hne]
    exact ⟨_, rfl, Fin.val_succ_of_ne_eight hne, Memory.read_write_same _ _ b,
      fun _ ha => Memory.read_write_other _ b ha, rfl⟩
  · rw [exec_rxpush, State.push_of_full (Fin.ext hfull)]

/-! ## How many bytes a frame needs (R92, R93) -/

theorem need_of_byte1 {bs : List Byte} {b1 : Byte} (h : bs[1]? = some b1) :
    need bs = if b1.getLsbD 7 = false then 8 else 5 := by
  match bs, h with
  | _ :: _ :: _, rfl =>
    rw [need]
    cases b1.getLsbD 7 <;> rfl

theorem need_of_no_byte1 {bs : List Byte} (h : bs[1]? = none) : need bs = 5 := by
  match bs, h with
  | [], _ => rfl
  | [_], _ => rfl

/-- Settles O31: by whether there is a byte 1; the bytes listed below `RXLEN` are the bytes held. -/
theorem rxneedIsToldByBit7 : Obligations.RxneedIsToldByBit7 := by
  unfold Obligations.RxneedIsToldByBit7
  refine ⟨fun bs => ?_, fun s bs hlen hread => ?_⟩
  · cases h : bs[1]? with
    | none => exact need_of_no_byte1 h
    | some b1 => exact need_of_byte1 h
  · rw [State.rxNeed, State.rxBytes_eq hlen hread]

/-- From two bytes on `RXNEED` is told by the byte held at address 1. -/
theorem State.rxNeed_of_two_le {s : State} (h : 2 ≤ s.rxLen.val) :
    s.rxNeed = if (s.rxByte 1).getLsbD 7 = false then 8 else 5 :=
  need_of_byte1 ((s.rxBytes_getElem? 1).trans (if_pos h))

theorem State.rxNeed_eq (s : State) : s.rxNeed = 5 ∨ s.rxNeed = 8 := need_eq s.rxBytes

/-- Settles O32: `RXNEED` is 5 or 8, and where `RXLEN` lies between the two, byte 1 tells which. -/
theorem rxcompleteByLength : Obligations.RxcompleteByLength := by
  unfold Obligations.RxcompleteByLength
  intro s
  have hiff : s.rxComplete = true ↔ s.rxNeed ≤ s.rxLen.val := s.rxComplete_iff
  have hneed := s.rxNeed_eq
  refine ⟨hiff, fun h4 => ?_, fun h5 h7 => ?_, fun h8 => ?_⟩
  · rw [Bool.eq_false_iff, ne_eq, hiff]
    omega
  · rw [Bool.eq_iff_iff, hiff, State.rxNeed_of_two_le (by omega)]
    split_ifs with hbit
    · exact iff_of_false (by omega) (Bool.eq_false_iff.mp hbit)
    · exact iff_of_true h5 (Bool.eq_true_of_not_eq_false hbit)
  · rw [hiff]
    omega

/-! ## The tests of R94 -/

/-- Settles O33: the length test, and the other tests on a payload with its two CRC bytes after it. -/
theorem decodeResponseTestsInOrder : Obligations.DecodeResponseTestsInOrder := by
  unfold Obligations.DecodeResponseTestsInOrder
  refine ⟨fun bs esid efc hshort => if_pos hshort, fun sid fc code more l h esid efc => ?_⟩
  exact decodeResponse_append (p := sid :: fc :: code :: more) (by simp) l h esid efc

/-! ## `DEC` on the bytes held (R95) -/

theorem State.judge_of_overflow {s : State} (hid : s.idValid = true) (hovf : s.rxOvf = true) (efc : Byte) :
    s.judge efc = { s with status := .rxOverflow } := by
  rcases s.judge_cases efc with ⟨_, hclear, _⟩ | ⟨hunset, _⟩ | ⟨_, _, h⟩
  · rw [hovf] at hclear; cases hclear
  · rw [hid] at hunset; cases hunset
  · exact h

/-- An executed `DEC`, in terms of the bytes listed below `RXLEN`. -/
theorem State.judge_of_held {s : State} (hid : s.idValid = true) (hovf : s.rxOvf = false)
    {bs : List Byte} (hlen : bs.length = s.rxLen.val)
    (hread : ∀ a, a < bs.length → Memory.read s.rx a = bs[a]?) (efc : Byte) :
    s.judge efc = { s with
      crc := if 5 ≤ bs.length then crc16 (payload bs) else s.crc,
      excode := (decodeResponse bs s.slaveId efc).2,
      status := (decodeResponse bs s.slaveId efc).1 } := by
  rw [State.judge_of_ready hid hovf, State.recomputedCrc, State.rxBytes_eq hlen hread, hlen]
  rfl

/-- Recomputing the CRC once more over the same bytes gives the same value. -/
theorem State.recomputedCrc_of_recomputed (s : State) (excode : Byte) (status : Status) :
    State.recomputedCrc { s with crc := s.recomputedCrc, excode := excode, status := status } =
      s.recomputedCrc := by
  unfold State.recomputedCrc
  split_ifs <;> rfl

/-- `DEC` consumes nothing, so a second one judges the same bytes (R95). -/
theorem State.judge_judge (efc : Byte) (s : State) : (s.judge efc).judge efc = s.judge efc := by
  rcases s.judge_cases efc with ⟨hid, hovf, h⟩ | ⟨hunset, h⟩ | ⟨hid, hovf, h⟩
  · rw [h, State.judge_of_ready (by exact hid) (by exact hovf), State.recomputedCrc_of_recomputed]
    rfl
  · rw [h, State.judge_of_unset (by exact hunset)]
  · rw [h, State.judge_of_overflow (by exact hid) (by exact hovf)]

/-- Settles O34: one clause for each case of `DEC`, and `judge_judge` for the second one. -/
theorem decClassifiesReceivedBytes : Obligations.DecClassifiesReceivedBytes := by
  unfold Obligations.DecClassifiesReceivedBytes
  intro s efc
  simp only [exec_dec]
  refine ⟨decodeCommand_eq_ok_iff_word (congrArg Presented.command (commandWord_join_zero 0x0B#8 efc)),
    fun hid hovf bs hlen hread => congrArg _ (State.judge_of_held hid hovf hlen hread efc),
    fun hid => congrArg _ (State.judge_of_unset hid efc),
    fun hid hovf => congrArg _ (State.judge_of_overflow hid hovf efc), ?_⟩
  rintro t ⟨rfl⟩
  exact congrArg _ (s.judge_judge efc)

/-- `DEC` neither looks at the transmit side nor writes it (R85, R96). -/
theorem State.judge_withTx (s : State) (m : Memory) (v : Bool) (efc : Byte) :
    State.judge efc { s with tx := m, txValid := v } = { s.judge efc with tx := m, txValid := v } := by
  rcases s.judge_cases efc with ⟨hid, hovf, h⟩ | ⟨hunset, h⟩ | ⟨hid, hovf, h⟩
  · rw [h, State.judge_of_ready (by exact hid) (by exact hovf)]
    rfl
  · rw [h, State.judge_of_unset (by exact hunset)]
  · rw [h, State.judge_of_overflow (by exact hid) (by exact hovf)]

/-- Settles O36: no test of R94 reads bytes 2 to 5 of a normal response, and `DEC` reads nothing of the request. -/
theorem decoderDoesNotCompareWithRequest : Obligations.DecoderDoesNotCompareWithRequest := by
  unfold Obligations.DecoderDoesNotCompareWithRequest
  refine ⟨fun sid rh rl vh vl l h hcrc => ?_, ?_⟩
  · have htests := decodeResponseTestsInOrder.2 sid 0x06#8 rh [rl, vh, vl] l h sid 0x06#8
    rwa [if_neg (not_not_intro hcrc), if_neg (not_not_intro rfl), if_pos rfl] at htests
  · simp only [exec_dec]
    rintro s t efc m v ⟨rfl⟩
    exact congrArg _ (s.judge_withTx m v efc)

/-- Settles O39: the bytes held are an exception frame that passes the tests up to the last, which delivers its code. -/
theorem exceptionCodeIsVerbatim : Obligations.ExceptionCodeIsVerbatim := by
  unfold Obligations.ExceptionCodeIsVerbatim
  intro s code l h hid hovf hlen h0 h1 h2 h3 h4 hcrc
  have hread : ∀ a, a < 5 → Memory.read s.rx a = (exceptionPayload s.slaveId code ++ [l, h])[a]? := by
    intro a ha
    match a, ha with
    | 0, _ => exact h0
    | 1, _ => exact h1
    | 2, _ => exact h2
    | 3, _ => exact h3
    | 4, _ => exact h4
  have hpayload : crc16 (exceptionPayload s.slaveId code) = h ++ l := hcrc
  have hjudged := State.judge_of_held (bs := exceptionPayload s.slaveId code ++ [l, h]) hid hovf hlen.symm
    hread Config.fcWsr
  rw [payload_append, decodeResponse_exception, hpayload] at hjudged
  simp only [ne_eq, not_true_eq_false, if_false] at hjudged
  exact congrArg _ hjudged

/-! ## The reception of any byte sequence (R100) -/

/-- Bytes from the link are received by the same procedure, whether they have the form of a frame row or not. -/
theorem servePresented_response (bytes : List Byte) (s : State) :
    servePresented (.response bytes) s = .next (s.receive bytes) := by
  cases hdecode : decodeFrame bytes with
  | error e =>
    have hnone : decode (.response bytes) = .error e := hdecode
    rw [servePresented, hnone]
    rfl
  | ok i =>
    rw [servePresented_of_decode (p := .response bytes) hdecode]
    have hencode := encode_of_decodeFrame hdecode
    cases i with
    | frameWsr sid addr val cl ch => cases hencode; rfl
    | frameException sid code cl ch => cases hencode; rfl
    | _ => cases hencode

theorem length_take_need_le_eight (bytes : List Byte) : (bytes.take (need bytes)).length ≤ 8 := by
  rw [List.length_take]
  rcases need_eq bytes with h | h <;> omega

/-- Whether they are judged or not, the bytes pushed are the needed ones, or all when there are fewer. -/
theorem State.receive_holds (bytes : List Byte) (s : State) :
    (s.receive bytes).rx = Memory.writeFrom s.rx 0 (bytes.take (need bytes)) ∧
      (s.receive bytes).rxLen = Fin.ofNat 9 (bytes.take (need bytes)).length ∧
      (s.receive bytes).rxBytes = bytes.take (need bytes) := by
  have hfit := length_take_need_le_eight bytes
  have hheld := State.rxBytes_pushAll_clear hfit s
  rw [State.receive_eq]
  split_ifs with hshort
  · rw [List.take_of_length_le hshort.le] at hfit hheld ⊢
    exact ⟨by rw [State.pushAll_clear hfit], by rw [State.pushAll_clear hfit], hheld⟩
  · obtain ⟨-, -, hepoch⟩ := (s.clear.pushAll (bytes.take (need bytes))).judge_sameHostSide Config.fcWsr
    obtain ⟨-, -, -, -, hrx, hlen, -⟩ := (s.clear.pushAll (bytes.take (need bytes))).judge_frame Config.fcWsr
    rw [State.rxBytes_congr hrx hlen hepoch, hrx, hlen]
    exact ⟨by rw [State.pushAll_clear hfit], by rw [State.pushAll_clear hfit], hheld⟩

/-- Too few bytes: they are held, and nothing else of the block changes but `STATUS`. -/
theorem State.receive_of_short {bytes : List Byte} (hshort : bytes.length < need bytes) (s : State) :
    s.receive bytes = { s with
      rx := (s.receive bytes).rx, rxLen := (s.receive bytes).rxLen, rxOvf := false, status := .ok } := by
  have hfit : bytes.length ≤ 8 := by rcases need_eq bytes with h | h <;> omega
  rw [State.receive_eq, if_pos hshort, State.pushAll_clear hfit]
  rfl

section EnoughBytes

variable {bytes : List Byte} (henough : need bytes ≤ bytes.length)

include henough

/-- The needed bytes are a whole response. -/
theorem whole_take_need : (bytes.take (need bytes)).length = need (bytes.take (need bytes)) := by
  have hlen : (bytes.take (need bytes)).length = need bytes := List.length_take_of_le henough
  have htwo : 2 ≤ (bytes.take (need bytes)).length := by rcases need_eq bytes with h | h <;> omega
  rw [← need_append htwo (bytes.drop (need bytes)), List.take_append_drop, hlen]

/-- The bytes after the needed ones make no difference (log 10). -/
theorem State.receive_take_need (s : State) : s.receive (bytes.take (need bytes)) = s.receive bytes := by
  rw [State.receive_of_whole (whole_take_need henough), State.receive_eq bytes, if_neg (by omega)]

/-- A complete response is eight bytes, or five with bit 7 of byte 1 set. -/
theorem State.receive_eight_or_five (s : State) :
    (bytes.take (need bytes)).length = 8 ∨
      (bytes.take (need bytes)).length = 5 ∧ ((s.receive bytes).rxByte 1).getLsbD 7 = true := by
  obtain ⟨-, -, hheld⟩ := s.receive_holds bytes
  have hneed : (bytes.take (need bytes)).length = (s.receive bytes).rxNeed := by
    rw [whole_take_need henough, State.rxNeed, hheld]
  have hlen : (s.receive bytes).rxLen.val = (bytes.take (need bytes)).length := by
    rw [← hheld, State.rxBytes_length]
  have hfive := (s.receive bytes).rxNeed_eq
  rw [hneed, State.rxNeed_of_two_le (by omega)]
  split_ifs with hbit
  · exact .inl rfl
  · exact .inr ⟨rfl, Bool.eq_true_of_not_eq_false hbit⟩

end EnoughBytes

/-- Settles O43: a step on bytes from the link is one reception; too few bytes are only held, and of enough bytes the
needed ones are received as a whole response. -/
theorem anyResponseIsReceived : Obligations.AnyResponseIsReceived := by
  unfold Obligations.AnyResponseIsReceived
  intro s bytes rest hport held
  have hstep : step s = .next ((s.take rest).receive bytes) := by
    rw [step_of_present hport, servePresented_response]
  obtain ⟨hrx, hlen, hheld⟩ := (s.take rest).receive_holds bytes
  refine ⟨_, hstep, by rw [← State.rxBytes_length, hheld], hheld, fun a ha => ?_, fun a ha => ?_,
    fun hshort => State.receive_of_short hshort (s.take rest), fun henough =>
      ⟨State.receive_eight_or_five henough _, fun hid => ?_, fun hid => ?_⟩⟩
  · simpa [hrx] using Memory.read_writeFrom_inside held s.rx 0 a ha
  · rw [hrx]
    exact Memory.read_writeFrom_outside held s.rx 0 a (.inr (by omega))
  · have hjudged := State.receive_of_whole_configured (whole_take_need henough) (s.take rest) hid
    rw [State.receive_take_need henough, ← hlen] at hjudged
    exact hjudged
  · have hrefused := State.receive_of_whole_unset (whole_take_need henough) (s.take rest) hid
    rw [State.receive_take_need henough, ← hlen] at hrefused
    exact hrefused

end Sys2Proof.Machine

/-! PROOFS. Exceptions (60_exceptions.md): the idle block, that every presentation completes with an outcome, and that only a
host read can stop a step. -/

namespace Sys2Proof.Machine

/-! ## The idle block and the reset event (R117, R125) -/

theorem step_of_no_event {s : State} (hport : s.port = []) : step s = .next s := by
  simp only [step, hport]

theorem step_of_reset {s : State} {rest : List HostEvent} (hport : s.port = .reset :: rest) :
    step s = .next (s.resetBlock rest) := by
  simp only [step, hport, serve]

/-- Settles O7: the step's equation for an empty port. -/
theorem idleBlockKeepsState : Obligations.IdleBlockKeepsState := by
  unfold Obligations.IdleBlockKeepsState
  exact fun _ => step_of_no_event

/-! ## Every presentation completes (R105, R118) -/

theorem idle_not_mem_outcomes (i : Instr) : Status.idle ∉ i.outcomes := by
  cases i <;> simp [Instr.outcomes]

/-- `Idle` is the reset value only: no instruction leaves it (R20). -/
theorem exec_status_ne_idle {i : Instr} {s t : State} (h : exec i s = .next t) : t.status ≠ .idle :=
  ne_of_mem_of_not_mem (operationsLeaveListedOutcomes i s t h) (idle_not_mem_outcomes i)

/-- A reception ends in a `DEC`, or in the last `RXCLR` or `RXPUSH` of a response that is too short (R100). -/
theorem State.receive_status_ne_idle (bytes : List Byte) (s : State) : (s.receive bytes).status ≠ .idle := by
  rcases lt_or_ge bytes.length (need bytes) with hshort | henough
  · rw [State.receive_of_short hshort]
    exact (nomatch ·)
  · rw [State.receive_eq, if_neg (Nat.not_lt.mpr henough)]
    exact exec_status_ne_idle (exec_dec Config.fcWsr _)

theorem State.receive_sameHostSide (bytes : List Byte) (s : State) : s.SameHostSide (s.receive bytes) :=
  State.receive_keeps (P := s.SameHostSide) (fun _ h => h)
    (fun b u h => h.trans (u.push_sameHostSide b)) (fun efc u h => h.trans (u.judge_sameHostSide efc))
    bytes s ⟨rfl, rfl, rfl⟩

/-- Settles O8: the decoded instruction runs, an illegal word is refused, and bytes from the link are received. -/
theorem everyPresentationCompletes : Obligations.EveryPresentationCompletes := by
  unfold Obligations.EveryPresentationCompletes
  intro s p rest hport
  cases p with
  | command cw =>
    cases hdecode : decodeCommand cw with
    | ok i =>
      obtain ⟨t, hexec, -⟩ := exec_cases i { s with port := rest, epoch := s.epoch + 1 }
      obtain ⟨hrest, -, -⟩ := operationsLeaveHostSideAlone _ _ t hexec
      exact ⟨t, (step_of_legal_command hport hdecode).trans hexec, hrest, exec_status_ne_idle hexec⟩
    | error e => exact ⟨_, step_of_illegal_command hport hdecode, rfl, (nomatch ·)⟩
  | response bytes =>
    obtain ⟨hrest, -, -⟩ := (s.take rest).receive_sameHostSide bytes
    exact ⟨_, (step_of_present hport).trans (servePresented_response bytes _), hrest,
      State.receive_status_ne_idle bytes _⟩

/-! ## Only a host read stops (R118, U3) -/

/-- A view numbered 0 to 4 exists, so a read that stops asks for another one. -/
theorem five_le_of_view_stops {s : State} {n : Nat} {rest : List HostEvent}
    (hport : s.port = .read (.view n) :: rest) (hstop : ∀ t, step s ≠ .next t) : 5 ≤ n := by
  by_contra hn
  obtain ⟨v, hview⟩ := s.view_of_le_four (n := n) (by omega)
  exact hstop _ (step_of_read_view hport hview)

/-- The addresses 0 to 7 exist in both spaces, so a read that stops asks for another one. -/
theorem eight_le_of_byte_stops {s : State} {space : Space} {a : Nat} {rest : List HostEvent}
    (hport : s.port = .read (.byte space a) :: rest) (hstop : ∀ t, step s ≠ .next t) : 8 ≤ a := by
  by_contra ha
  obtain ⟨b, hbyte⟩ := s.readByte_of_le_seven (a := a) (by omega) space
  exact hstop _ (step_of_read_byte hport hbyte)

/-- Settles O9: by the next event; with none, on a presentation and on the reset event the step goes on. -/
theorem onlyHostReadsStop : Obligations.OnlyHostReadsStop := by
  unfold Obligations.OnlyHostReadsStop
  intro s hstop
  match hport : s.port with
  | [] => exact absurd (step_of_no_event hport) (hstop s)
  | .present p :: rest =>
    obtain ⟨t, hstep, -, -⟩ := everyPresentationCompletes s p rest hport
    exact absurd hstep (hstop t)
  | .reset :: rest => exact absurd (step_of_reset hport) (hstop _)
  | .read (.view n) :: rest => exact ⟨_, rest, rfl, .inl ⟨n, rfl, five_le_of_view_stops hport hstop⟩⟩
  | .read (.byte space a) :: rest =>
    exact ⟨_, rest, rfl, .inr ⟨space, a, rfl, eight_le_of_byte_stops hport hstop⟩⟩

end Sys2Proof.Machine

/-! PROOFS. Reset (70_reset_and_hazards.md): the values that reset gives, the reset event, and the invariant's base case. -/

namespace Sys2Proof.Machine

/-! ## The derived values after reset (R126) -/

@[simp] theorem State.reset_rxBytes : State.reset.rxBytes = [] :=
  List.eq_nil_of_length_eq_zero (State.rxBytes_length _)

theorem State.reset_rxNeed : State.reset.rxNeed = 5 := by
  rw [State.rxNeed, State.reset_rxBytes, need_of_no_byte1 rfl]

theorem State.reset_rxComplete : State.reset.rxComplete = false := by
  simp [State.rxComplete, State.reset_rxNeed]

theorem State.reset_txLen : State.reset.txLen = 0 := State.txLen_of_invalid rfl

/-- Settles O10: the elements are those of `State.reset`, the derived values follow from them, and no operation stops. -/
theorem resetLeavesListedValues : Obligations.ResetLeavesListedValues := by
  unfold Obligations.ResetLeavesListedValues
  refine ⟨State.reset_crc, State.reset_slaveId, State.reset_idValid, State.reset_txValid, State.reset_rxLen,
    State.reset_rxOvf, State.reset_excode, State.reset_status, State.reset_rxNeed, State.reset_rxComplete,
    State.reset_txLen, fun i _ => ?_⟩
  obtain ⟨t, ht, -⟩ := exec_cases i State.reset
  exact ⟨t, ht⟩

/-! ## The reset event and the invariant (R125, R126) -/

/-- Settles O11: the step's equation for a reset event; the obligation writes out the state that `State.resetBlock` names. -/
theorem resetEventRestoresReset : Obligations.ResetEventRestoresReset :=
  fun _ _ hport => step_of_reset hport

/-- Settles O53: the base case that `everyStepKeepsInv` also uses. -/
theorem resetSatisfiesInv : Obligations.ResetSatisfiesInv := State.Inv.reset

end Sys2Proof.Machine
